-- ==== Sys2Proof/Word.lean ====
section
/-! DEFINITION. The word types of the engine: a word is a 32-bit unsigned value (00_scope R10), and
every register, address and memory cell is one whole word (20_memory R51, R56). -/

namespace Sys2Proof

/-- A 32-bit word: memory cell, register, address, instruction word or literal (00_scope R5, R10). -/
abbrev Word := BitVec 32

/-- A 16-bit immediate or jump target, bits 15:0 of an instruction word (30_encoding R72). -/
abbrev Half := BitVec 16

/-- An opcode byte, bits 31:24 of an instruction word (30_encoding R70). -/
abbrev Byte := BitVec 8

/-- The index of a general register, already masked into 0 .. 15 (10_state R23, 30_encoding R74). -/
abbrev Reg := BitVec 4

end Sys2Proof
end

