-- ==== Sys2Proof/Config.lean ====
section
/-! DEFINITION. What one instance fixes when it is constructed (00_scope R5, R6). The only open
parameter is MEM_SIZE; it lives in `State.memSize`, and this file gives the value with which
`State.reset` constructs the engine. -/

namespace Sys2Proof

/-- MEM_SIZE of the instance `State.reset` constructs (00_scope R5, spec decision D1: OPEN).
DESIGN CHOICE (notes/assumptions/2.md): 256 words, the value of the spec's worked examples
(95_test_vectors, "MEM_SIZE = 256 unless a vector says otherwise"). No meaning and no step reads it. -/
def Config.memSize : Word := 256#32

end Sys2Proof
end

