-- ==== Sys2Proof/Machine/State.lean ====
section
/-! DEFINITION. The state of one engine instance (10_state R20), the reasons a step can stop
(60_exceptions R194, R202), and the state after reset (10_state R40). -/

namespace Sys2Proof.Machine

/-- Memory as data: pairs of a word address and the word there, addresses strictly rising, no entry 0
(an unlisted address reads as 0, 10_state R40). The cell is the whole 32-bit word, which 20_memory R56
requires: DEDUCED (notes/assumptions/5.md). -/
abbrev Memory := List (Nat × Word)

/-- The flags register: six named one-bit flags (10_state R31). Only `zero` and `sign` are ever
written (R33, R34). -/
structure Flags where
  /-- CARRY, inert (10_state R34). -/
  carry : Bool
  /-- ZERO (42_alu R132). -/
  zero : Bool
  /-- INTERRUPT, inert (10_state R34, 60_exceptions R200). -/
  interrupt : Bool
  /-- SIGN (42_alu R132). -/
  sign : Bool
  /-- OVERFLOW, inert (10_state R34). -/
  overflow : Bool
  /-- PARITY, inert (10_state R34). -/
  parity : Bool
deriving DecidableEq, Repr

/-- The complete architectural state of one engine instance (10_state R20). -/
structure State where
  /-- `x[0] .. x[15]` (10_state R21). -/
  regs : Vector Word 16
  /-- The program counter, a word address (10_state R25). -/
  pc : Word
  /-- The stack pointer, a word address, MEM_SIZE when the stack is empty (10_state R29). -/
  sp : Word
  /-- The flags register (10_state R31). -/
  flags : Flags
  /-- The halted status (10_state R37). -/
  halted : Bool
  /-- `Mem[0 .. MEM_SIZE-1]` (10_state R38). -/
  mem : Memory
  /-- MEM_SIZE, fixed when the instance is constructed, 0 .. 2^32 - 1 (00_scope R5, 10_state R41).
  DESIGN CHOICE (notes/assumptions/1.md): a field that no step writes, so that statements over all
  states speak of every memory size. -/
  memSize : Word
deriving DecidableEq, Repr

/-- The two kinds of StackError (60_exceptions R192). -/
inductive StackErrorKind where
  /-- PUSH or CALL at `sp == 0`. -/
  | overflow
  /-- POP or RET at `sp >= MEM_SIZE`. -/
  | underflow
deriving DecidableEq, Repr

/-- The closed enumeration of abnormal outcomes (60_exceptions R190, R194). Each carries the state
left behind, which nothing rolls back (40_step_cycle R112, 60_exceptions R196): DEDUCED
(notes/assumptions/6.md). -/
inductive Fault where
  /-- MemoryAccessError(addr), raised by fetch, literal fetch, LOAD, STORE and STORE_I32 at an address
  `>= MEM_SIZE` (60_exceptions R191). Safe: the spec names this error, and it ends the run. -/
  | memoryAccessError (addr : Word) (left : State)
  /-- StackError, raised by PUSH and CALL (overflow), POP and RET (underflow) (60_exceptions R192).
  Safe: the spec names this error, and it ends the run. -/
  | stackError (kind : StackErrorKind) (left : State)
  /-- UnknownOpcode(op, addr), the soft halt of an opcode absent from the dispatch table: `left` is
  halted with its pc past the word (45_system R184, 60_exceptions R193). Safe: the state change is
  kept in `left`, and R202 has a model record the outcome as a fault (notes/assumptions/7.md). -/
  | unknownOpcode (op : Byte) (addr : Word) (left : State)
deriving DecidableEq, Repr

/-- The state an abnormal outcome leaves behind for the host to inspect or to step again
(40_step_cycle R112, R113). -/
def Fault.left : Fault → State
  | .memoryAccessError _ left => left
  | .stackError _ left => left
  | .unknownOpcode _ _ left => left

/-- Why the model gives no meaning. -/
inductive Refusal where
  /-- An instruction that `exec` does not model yet; no arm of `exec` answers it now. Safe. -/
  | notModelled (mnemonic : String)
  /-- A step met the reserved word `word` at `addr`: 0xE2 or 0xE4 without its sentinel
  (30_encoding R83, 93_implementation_defined U4). Safe: the spec gives it no meaning. -/
  | reservedEncoding (word addr : Word)
  /-- The host operation loadProgram of `n` words at `base` that do not fit in memory
  (70_reset_and_hazards R227, 93_implementation_defined U8). Safe. -/
  | loadDoesNotFit (base : Word) (n : Nat)
  /-- The host's snapshot of `n` memory words from `base` beyond `[0, MEM_SIZE)`
  (70_reset_and_hazards R229, 93_implementation_defined U14). Safe. -/
  | rangeOutsideMemory (base : Word) (n : Nat)
deriving DecidableEq, Repr

/-- The flags after reset: all 0 (10_state R40; Z and S by the spec's decision D2). -/
def Flags.clear : Flags := ⟨false, false, false, false, false, false⟩

/-- Construction with a memory of `memSize` words, the same as a full reset (10_state R40,
70_reset_and_hazards R220): `sp = MEM_SIZE`, `halted = 0`, flags 0; and, DESIGN CHOICE by the spec's
decisions D2 and D3 (notes/assumptions/3.md, 4.md), `x`, `pc` and every memory word 0. -/
def State.construct (memSize : Word) : State where
  regs := Vector.replicate 16 0#32
  pc := 0#32
  sp := memSize
  flags := Flags.clear
  halted := false
  mem := []
  memSize := memSize

/-- The machine right after reset, with a memory of `Config.memSize` words (10_state R40). -/
def State.reset : State := State.construct Config.memSize

end Sys2Proof.Machine
end

