-- ==== Sys2Proof/Machine/Operands.lean ====
section
/-! DEFINITION. The operand forms: general registers by masked index (10_state R23, 30_encoding R74)
and zero-extended 16-bit fields (30_encoding R76). Literals are whole words and need no operation. -/

namespace Sys2Proof.Machine

/-- `x[i]` (00_scope R12, 10_state R22): no side effect, every index names a register (R21). -/
def State.reg (s : State) (i : Reg) : Word := s.regs[i.toNat]'i.isLt

/-- `x[i] <- v`: the whole 32-bit value is replaced (10_state R22). -/
def State.setReg (s : State) (i : Reg) (v : Word) : State :=
  { s with regs := s.regs.set i.toNat v i.isLt }

/-- `zext_32`, the only extension of an immediate or target (00_scope R11, 30_encoding R76).
DEDUCED (notes/assumptions/13.md): the spec's decision D10. -/
def zext32 (h : Half) : Word := h.setWidth 32

end Sys2Proof.Machine
end

