-- ==== Sys2Proof/Machine/Flags.lean ====
section
/-! DEFINITION. The ALU (42_alu R130), the flag update (R132) and the branch conditions
(43_compare_branch R154). -/

namespace Sys2Proof.Machine

/-- The ALU's operation selector: six names, no numeric encoding (42_alu R130). -/
inductive AluOp where
  | add | sub | and | or | xor | not
deriving DecidableEq, Repr

/-- The ALU: a pure function of two operands and a selector, modulo 2^32 (42_alu R130, R131).
DEDUCED: SUB subtracts the second operand (notes/assumptions/14.md), NOT is the bitwise complement of
the first and ignores the second (notes/assumptions/26.md). -/
def alu (op : AluOp) (a b : Word) : Word :=
  match op with
  | .add => a + b
  | .sub => a - b
  | .and => a &&& b
  | .or => a ||| b
  | .xor => a ^^^ b
  | .not => ~~~ a

/-- `SetZS(res)`: ZERO and SIGN from the result, the other four flags untouched (42_alu R132,
10_state R34). -/
def Flags.setZS (f : Flags) (res : Word) : Flags := { f with zero := res == 0#32, sign := res.msb }

/-- `SetZS(res)` on the engine. -/
def State.setZS (s : State) (res : Word) : State := { s with flags := s.flags.setZS res }

/-- `x[d] <- ALU(op, x[d], b)` with both flags recomputed (42_alu R132, R133): operands are read before
the destination is written. -/
def State.aluWrite (s : State) (op : AluOp) (d : Reg) (b : Word) : State :=
  (s.setReg d (alu op (s.reg d) b)).setZS (alu op (s.reg d) b)

/-- A compare: the flags of `a - b`, the difference discarded (43_compare_branch R150). DEDUCED
(notes/assumptions/15.md): the spec's decision D12. -/
def State.compare (s : State) (a b : Word) : State := s.setZS (alu .sub a b)

/-- The conditions of the six conditional jumps (43_compare_branch R154). -/
inductive Cond where
  | z | nz | l | g | le | ge
deriving DecidableEq, Repr

/-- When a conditional jump is taken: ZERO and SIGN only (10_state R35, 43_compare_branch R154). `ge`
is "SIGN clear OR ZERO set" exactly as written (93_implementation_defined U1). -/
def Cond.holds (c : Cond) (f : Flags) : Bool :=
  match c with
  | .z => f.zero
  | .nz => !f.zero
  | .l => f.sign
  | .g => !f.sign && !f.zero
  | .le => f.sign || f.zero
  | .ge => !f.sign || f.zero

end Sys2Proof.Machine
end

