-- ==== Sys2Proof/Machine/Ops.lean ====
section
/-! DEFINITION. The named operations over memory, pc, sp and the halted bit: the two bounds-checked
memory primitives (20_memory R52, R53), the stack (44_stack_call) and the soft halt (45_system R184).
The engine has no trap entry and no return from one (60_exceptions R196, R199): raising an error is the
`error` answer of these operations, which carries the state left. -/

namespace Sys2Proof.Machine

/-! ### Memory as data -/

/-- The word at an address; an unlisted address reads as 0 (10_state R40). -/
def Memory.read : Memory → Nat → Word
  | [], _ => 0#32
  | (b, v) :: rest, a => if b = a then v else Memory.read rest a

/-- Memory with nothing listed at an address. -/
def Memory.erase (m : Memory) (a : Nat) : Memory := m.filter fun e => e.1 != a

/-- Memory with an entry put at its place in the rising order. -/
def Memory.insert : Memory → Nat → Word → Memory
  | [], a, v => [(a, v)]
  | (b, u) :: rest, a, v =>
    if a < b then (a, v) :: (b, u) :: rest else (b, u) :: Memory.insert rest a v

/-- Memory with one word replaced (20_memory R53); writing 0 removes the entry. -/
def Memory.write (m : Memory) (a : Nat) (v : Word) : Memory :=
  if v = 0#32 then m.erase a else (m.erase a).insert a v

/-- The canonical form: addresses strictly rising and no entry 0. -/
def Memory.wf (m : Memory) : Bool :=
  decide (m.Pairwise fun e f => e.1 < f.1) && m.all fun e => e.2 != 0#32

/-- Every listed address lies inside a memory of `size` words (20_memory R50). -/
def Memory.inside (m : Memory) (size : Nat) : Bool := m.all fun e => decide (e.1 < size)

/-! ### Single registers -/

/-- `pc <- t` (00_scope R12). -/
def State.setPc (s : State) (t : Word) : State := { s with pc := t }

/-- `sp <- a` (10_state R29). -/
def State.setSp (s : State) (a : Word) : State := { s with sp := a }

/-- `halted <- 1` (10_state R37). -/
def State.halt (s : State) : State := { s with halted := true }

/-! ### The memory primitives -/

/-- `Mem[a] <- v` without the check, used inside the primitive only (00_scope R12). -/
def State.putWord (s : State) (a v : Word) : State := { s with mem := s.mem.write a.toNat v }

/-- `MemRead(a, 1)`: the word, or MemoryAccessError(a) when `a >= MEM_SIZE`, never clamped or wrapped
(00_scope R13, 20_memory R52, R54). -/
def State.memRead (s : State) (a : Word) : Except Fault Word :=
  if a < s.memSize then .ok (s.mem.read a.toNat) else .error (.memoryAccessError a s)

/-- `MemWrite(a, 1, v)`: the state with that word replaced, or MemoryAccessError(a) with memory
unchanged when `a >= MEM_SIZE` (00_scope R13, 20_memory R53, R54). -/
def State.memWrite (s : State) (a v : Word) : Except Fault State :=
  if a < s.memSize then .ok (s.putWord a v) else .error (.memoryAccessError a s)

/-! ### The stack -/

/-- The push of PUSH and CALL: check `sp == 0`, decrement, store at the new `sp`
(44_stack_call R170, R172, R174). With `sp > MEM_SIZE`, which no run reaches (10_state R30), the store
raises MemoryAccessError after the decrement: DEDUCED (notes/assumptions/30.md). -/
def State.push (s : State) (v : Word) : Except Fault State :=
  if s.sp = 0#32 then .error (.stackError .overflow s)
  else (s.setSp (s.sp - 1#32)).memWrite (s.sp - 1#32) v

/-- The pop of POP and RET: check `sp >= MEM_SIZE`, load at `sp`, increment
(44_stack_call R171, R173, R174). It answers the word and the state after the increment. -/
def State.pop (s : State) : Except Fault (Word × State) :=
  if s.memSize ≤ s.sp then .error (.stackError .underflow s)
  else (s.memRead s.sp).map fun v => (v, s.setSp (s.sp + 1#32))

/-! ### Outcomes -/

/-- The outcome of an operation that answers a state or raises. -/
def finish : Except Fault State → Host.Outcome State Fault Refusal
  | .ok s => .next s
  | .error f => .fault f

/-- The soft halt on an opcode absent from the dispatch table: `pc <- A + 1`, `halted <- 1`, report
UnknownOpcode(op, A) (45_system R184). DEDUCED (notes/assumptions/7.md): reported as a fault that
carries exactly this state, as 60_exceptions R202 says. -/
def State.softHalt (s : State) (op : Byte) : Fault :=
  .unknownOpcode op s.pc ((s.setPc (s.pc + 1#32)).halt)

end Sys2Proof.Machine
end

