-- ==== Sys2Proof/Machine/Alu.lean ====
section
/-! DEFINITION. ADD, SUB, AND, OR, XOR, NOT and ADD imm16 (42_alu): `x[d]` is both first operand and
destination (R133), ZERO and SIGN follow the result (R132), nothing raises (R141). -/

namespace Sys2Proof.Machine

/-- ADD rd, rs (42_alu R134). -/
def execAdd (d r : Reg) (s : State) : Host.Outcome State Fault Refusal :=
  .next (s.aluWrite .add d (s.reg r))

/-- SUB rd, rs: `x[d] - x[s]` (42_alu R135). -/
def execSub (d r : Reg) (s : State) : Host.Outcome State Fault Refusal :=
  .next (s.aluWrite .sub d (s.reg r))

/-- AND rd, rs (42_alu R136). -/
def execAnd (d r : Reg) (s : State) : Host.Outcome State Fault Refusal :=
  .next (s.aluWrite .and d (s.reg r))

/-- OR rd, rs (42_alu R137). -/
def execOr (d r : Reg) (s : State) : Host.Outcome State Fault Refusal :=
  .next (s.aluWrite .or d (s.reg r))

/-- XOR rd, rs (42_alu R138). -/
def execXor (d r : Reg) (s : State) : Host.Outcome State Fault Refusal :=
  .next (s.aluWrite .xor d (s.reg r))

/-- NOT rd: the complement in place; the second ALU operand is ignored (42_alu R139). -/
def execNot (d : Reg) (s : State) : Host.Outcome State Fault Refusal :=
  .next (s.aluWrite .not d 0#32)

/-- ADD rd, imm16: the constant zero-extended (42_alu R140). DEDUCED (notes/assumptions/16.md): it
updates ZERO and SIGN, the spec's decision D13. -/
def execAddI16 (d : Reg) (imm16 : Half) (s : State) : Host.Outcome State Fault Refusal :=
  .next (s.aluWrite .add d (zext32 imm16))

end Sys2Proof.Machine
end

