-- ==== Sys2Proof/Machine/CompareBranch.lean ====
section
/-! DEFINITION. CMP and the seven jumps (43_compare_branch). A not-taken jump leaves `pc` where fetch
put it, and no jump checks its target (R162). -/

namespace Sys2Proof.Machine

/-- `if condition then pc <- zext_32(target)` (43_compare_branch R154, R162). -/
def State.jumpIf (s : State) (taken : Bool) (target : Half) : State :=
  if taken then s.setPc (zext32 target) else s

/-- CMP r, imm16 (43_compare_branch R151). -/
def execCmpI16 (r : Reg) (imm16 : Half) (s : State) : Host.Outcome State Fault Refusal :=
  .next (s.compare (s.reg r) (zext32 imm16))

/-- CMP r1, r2: first minus second (43_compare_branch R152). -/
def execCmpRR (r1 r2 : Reg) (s : State) : Host.Outcome State Fault Refusal :=
  .next (s.compare (s.reg r1) (s.reg r2))

/-- JMP target (43_compare_branch R155). -/
def execJmp (target : Half) (s : State) : Host.Outcome State Fault Refusal :=
  .next (s.jumpIf true target)

/-- JZ target: ZERO set (43_compare_branch R156). -/
def execJz (target : Half) (s : State) : Host.Outcome State Fault Refusal :=
  .next (s.jumpIf (Cond.z.holds s.flags) target)

/-- JNZ target: ZERO clear (43_compare_branch R157). -/
def execJnz (target : Half) (s : State) : Host.Outcome State Fault Refusal :=
  .next (s.jumpIf (Cond.nz.holds s.flags) target)

/-- JL target: SIGN set (43_compare_branch R158). -/
def execJl (target : Half) (s : State) : Host.Outcome State Fault Refusal :=
  .next (s.jumpIf (Cond.l.holds s.flags) target)

/-- JG target: SIGN clear and ZERO clear (43_compare_branch R159). -/
def execJg (target : Half) (s : State) : Host.Outcome State Fault Refusal :=
  .next (s.jumpIf (Cond.g.holds s.flags) target)

/-- JLE target: SIGN set or ZERO set (43_compare_branch R160). -/
def execJle (target : Half) (s : State) : Host.Outcome State Fault Refusal :=
  .next (s.jumpIf (Cond.le.holds s.flags) target)

/-- JGE target: SIGN clear or ZERO set (43_compare_branch R161). -/
def execJge (target : Half) (s : State) : Host.Outcome State Fault Refusal :=
  .next (s.jumpIf (Cond.ge.holds s.flags) target)

end Sys2Proof.Machine
end

