-- ==== Sys2Proof/Machine/DataMovement.lean ====
section
/-! DEFINITION. MOV, LOAD and STORE (41_data_movement). `pc` is already past the instruction when a
meaning runs, and literals are operands (40_step_cycle R102). No flag changes (10_state R33). -/

namespace Sys2Proof.Machine

/-- MOV rd, rs: `x[d] <- x[s]` (41_data_movement R120). -/
def execMovRR (d r : Reg) (s : State) : Host.Outcome State Fault Refusal :=
  .next (s.setReg d (s.reg r))

/-- MOV rd, imm16: `x[d] <- zext_32(imm16)` (41_data_movement R121). -/
def execMovI16 (d : Reg) (imm16 : Half) (s : State) : Host.Outcome State Fault Refusal :=
  .next (s.setReg d (zext32 imm16))

/-- MOV rd, imm32: `x[d] <- L1` (41_data_movement R122). -/
def execMovI32 (d : Reg) (literal : Word) (s : State) : Host.Outcome State Fault Refusal :=
  .next (s.setReg d literal)

/-- LOAD rd, [ra]: `x[d] <- MemRead(x[a])` (41_data_movement R123). -/
def execLoad (d a : Reg) (s : State) : Host.Outcome State Fault Refusal :=
  finish ((s.memRead (s.reg a)).map fun v => s.setReg d v)

/-- STORE [ra], rv: `MemWrite(x[a], x[v])` (41_data_movement R124). -/
def execStore (v a : Reg) (s : State) : Host.Outcome State Fault Refusal :=
  finish (s.memWrite (s.reg a) (s.reg v))

/-- STORE imm32, imm32: `MemWrite(L1, L2)` (41_data_movement R125). -/
def execStoreI32 (addr value : Word) (s : State) : Host.Outcome State Fault Refusal :=
  finish (s.memWrite addr value)

end Sys2Proof.Machine
end

