-- ==== Sys2Proof/Machine/Stack.lean ====
section
/-! DEFINITION. PUSH, POP, CALL and RET (44_stack_call). `pc` is already A + 1 when a meaning runs
(40_step_cycle R103: DEDUCED, notes/assumptions/19.md). No flag changes. -/

namespace Sys2Proof.Machine

/-- PUSH r (44_stack_call R170). -/
def execPush (r : Reg) (s : State) : Host.Outcome State Fault Refusal :=
  finish (s.push (s.reg r))

/-- POP r (44_stack_call R171). -/
def execPop (r : Reg) (s : State) : Host.Outcome State Fault Refusal :=
  finish (s.pop.map fun p => p.2.setReg r p.1)

/-- CALL target: push the return address A + 1, then jump (44_stack_call R172). DEDUCED
(notes/assumptions/18.md): the overflow check, the spec's decision D15. -/
def execCall (target : Half) (s : State) : Host.Outcome State Fault Refusal :=
  finish ((s.push s.pc).map fun t => t.setPc (zext32 target))

/-- RET: pop the whole word into `pc`, unchecked (44_stack_call R173). DEDUCED
(notes/assumptions/18.md): the underflow check, the spec's decision D15. -/
def execRet (s : State) : Host.Outcome State Fault Refusal :=
  finish (s.pop.map fun p => p.2.setPc p.1)

end Sys2Proof.Machine
end

