-- ==== Sys2Proof/Machine/System.lean ====
section
/-! DEFINITION. NOP, HLT and the I/O placeholders (45_system). -/

namespace Sys2Proof.Machine

/-- NOP: nothing (45_system R180). -/
def execNop (s : State) : Host.Outcome State Fault Refusal := .next s

/-- HLT: `halted <- 1` (45_system R181). -/
def execHlt (s : State) : Host.Outcome State Fault Refusal := .next s.halt

/-- IN r: a placeholder; the register is decoded, neither read nor written (45_system R182). -/
def execInp (_r : Reg) (s : State) : Host.Outcome State Fault Refusal := .next s

/-- OUT r: a placeholder; the register is decoded, neither read nor written (45_system R183). -/
def execOut (_r : Reg) (s : State) : Host.Outcome State Fault Refusal := .next s

end Sys2Proof.Machine
end

