-- ==== Sys2Proof/Syntax.lean ====
section
/-! DEFINITION. The instructions: one constructor per row of spec/opcode_table.json, in the table's
order (30_encoding R80). Operands are the fields that select something (R72); ignored bits are not
part of an instruction (R75). -/

namespace Sys2Proof

/-- An instruction of the engine, operands decoded (30_encoding R80, R86). Every term is a legal
instruction: no register, immediate, target or literal value is illegal (R74, R76, 41 R122). -/
inductive Instr where
  /-- 0x00 NOP (45_system R180). -/
  | nop
  /-- 0x01 MOV rd, rs (41_data_movement R120). -/
  | movRR (d s : Reg)
  /-- 0x02 MOV rd, imm16 (41_data_movement R121). -/
  | movI16 (d : Reg) (imm16 : Half)
  /-- 0x03 LOAD rd, [ra] (41_data_movement R123). -/
  | load (d a : Reg)
  /-- 0x04 STORE [ra], rv: `v` the value register, `a` the address register (41_data_movement R124). -/
  | store (v a : Reg)
  /-- 0x05 ADD rd, rs (42_alu R134). -/
  | add (d s : Reg)
  /-- 0x06 SUB rd, rs (42_alu R135). -/
  | sub (d s : Reg)
  /-- 0x07 AND rd, rs (42_alu R136). -/
  | and (d s : Reg)
  /-- 0x08 OR rd, rs (42_alu R137). -/
  | or (d s : Reg)
  /-- 0x09 XOR rd, rs (42_alu R138). -/
  | xor (d s : Reg)
  /-- 0x0A NOT rd (42_alu R139). -/
  | not (d : Reg)
  /-- 0x10 CMP r, imm16 (43_compare_branch R151). -/
  | cmpI16 (r : Reg) (imm16 : Half)
  /-- 0x11 CMP r1, r2 (43_compare_branch R152). -/
  | cmpRR (r s : Reg)
  /-- 0x12 JMP target (43_compare_branch R155). -/
  | jmp (target : Half)
  /-- 0x13 JZ target (43_compare_branch R156). -/
  | jz (target : Half)
  /-- 0x14 JNZ target (43_compare_branch R157). -/
  | jnz (target : Half)
  /-- 0x15 JL target (43_compare_branch R158). -/
  | jl (target : Half)
  /-- 0x16 JG target (43_compare_branch R159). -/
  | jg (target : Half)
  /-- 0x17 JLE target (43_compare_branch R160). -/
  | jle (target : Half)
  /-- 0x18 JGE target (43_compare_branch R161). -/
  | jge (target : Half)
  /-- 0x30 CALL target (44_stack_call R172). -/
  | call (target : Half)
  /-- 0x31 RET (44_stack_call R173). -/
  | ret
  /-- 0x32 PUSH r (44_stack_call R170). -/
  | push (r : Reg)
  /-- 0x33 POP r (44_stack_call R171). -/
  | pop (r : Reg)
  /-- 0x40 IN r, a placeholder (45_system R182). -/
  | inp (r : Reg)
  /-- 0x41 OUT r, a placeholder (45_system R183). -/
  | out (r : Reg)
  /-- 0xE2 MOV rd, imm32, two words (41_data_movement R122). -/
  | movI32 (d : Reg) (literal : Word)
  /-- 0xE4 STORE imm32, imm32, three words: address literal, then value literal (41_data_movement R125). -/
  | storeI32 (addr value : Word)
  /-- 0xE5 ADD rd, imm16 (42_alu R140). -/
  | addI16 (d : Reg) (imm16 : Half)
  /-- 0xFF HLT (45_system R181). -/
  | hlt
deriving DecidableEq, Repr

end Sys2Proof
end

