-- ==== Sys2Proof/Machine/Dispatch.lean ====
section
/-! DEFINITION. The dispatch table: each instruction's handler (40_step_cycle R104, R106, R107). -/

namespace Sys2Proof.Machine

-- One arm per row of 30_encoding R80, in the table's order; `pc` is already past the instruction.
def exec (i : Instr) (s : State) : Host.Outcome State Fault Refusal :=
  match i with
  | .nop => Sys2Proof.Machine.execNop s
  | .movRR rd rs => Sys2Proof.Machine.execMovRR rd rs s
  | .movI16 rd imm => Sys2Proof.Machine.execMovI16 rd imm s
  | .load rd ra => Sys2Proof.Machine.execLoad rd ra s
  | .store rv ra => Sys2Proof.Machine.execStore rv ra s
  | .add rd rs => Sys2Proof.Machine.execAdd rd rs s
  | .sub rd rs => Sys2Proof.Machine.execSub rd rs s
  | .and rd rs => Sys2Proof.Machine.execAnd rd rs s
  | .or rd rs => Sys2Proof.Machine.execOr rd rs s
  | .xor rd rs => Sys2Proof.Machine.execXor rd rs s
  | .not rd => Sys2Proof.Machine.execNot rd s
  | .cmpI16 r1 imm => Sys2Proof.Machine.execCmpI16 r1 imm s
  | .cmpRR r1 r2 => Sys2Proof.Machine.execCmpRR r1 r2 s
  | .jmp t => Sys2Proof.Machine.execJmp t s
  | .jz t => Sys2Proof.Machine.execJz t s
  | .jnz t => Sys2Proof.Machine.execJnz t s
  | .jl t => Sys2Proof.Machine.execJl t s
  | .jg t => Sys2Proof.Machine.execJg t s
  | .jle t => Sys2Proof.Machine.execJle t s
  | .jge t => Sys2Proof.Machine.execJge t s
  | .call t => Sys2Proof.Machine.execCall t s
  | .ret => Sys2Proof.Machine.execRet s
  | .push r1 => Sys2Proof.Machine.execPush r1 s
  | .pop r1 => Sys2Proof.Machine.execPop r1 s
  | .inp r1 => Sys2Proof.Machine.execInp r1 s
  | .out r1 => Sys2Proof.Machine.execOut r1 s
  | .movI32 rd lit => Sys2Proof.Machine.execMovI32 rd lit s
  | .storeI32 addr val => Sys2Proof.Machine.execStoreI32 addr val s
  | .addI16 rd imm => Sys2Proof.Machine.execAddI16 rd imm s
  | .hlt => Sys2Proof.Machine.execHlt s

end Sys2Proof.Machine
end

