-- ==== Sys2Proof/Decode.lean ====
section
/-! DEFINITION. The decoder and the encoder (30_encoding R70 to R86, R97). The decoder is total on
32-bit words: an instruction, the number of literals it still needs, `unknown` or `reserved`. -/

namespace Sys2Proof

/-! ### Fields of an instruction word (30_encoding R72, R74, R76) -/

/-- `op = W[31:24]` (30_encoding R70). -/
def opcodeOf (w : Word) : Byte := w.extractLsb' 24 8

/-- `ra_index = W[19:16]`, the first register field masked (30_encoding R74). -/
def fieldRa (w : Word) : Reg := w.extractLsb' 16 4

/-- `rb_index = W[11:8]`, the second register field masked (30_encoding R74). -/
def fieldRb (w : Word) : Reg := w.extractLsb' 8 4

/-- `imm16 = W[15:0]`, also the 16-bit target (30_encoding R76). -/
def fieldImm16 (w : Word) : Half := w.extractLsb' 0 16

/-- The RL sentinel holds: `W[7:0] = 0xFF` (30_encoding R78). -/
def sentinelRL (w : Word) : Bool := w.extractLsb' 0 8 == 0xFF#8

/-- The LL sentinel holds: `W[23:0] = 0xFFFFFF` (30_encoding R78). -/
def sentinelLL (w : Word) : Bool := w.extractLsb' 0 24 == 0xFFFFFF#24

/-! ### The opcode table (30_encoding R71, R80) -/

/-- The seven instruction formats (30_encoding R71). -/
inductive Format where
  | n | r | rr | ri | j | rl | ll
deriving DecidableEq, Repr

/-- The 30 opcodes with their formats (30_encoding R80, 40_step_cycle R106). DEDUCED
(notes/assumptions/12.md): the values inside 0x05-0x09 and 0x12-0x18 follow the spec's decision D9. -/
def opcodeTable : List (Byte × Format) :=
  [(0x00#8, Format.n), (0x01#8, Format.rr), (0x02#8, Format.ri), (0x03#8, Format.rr), (0x04#8, Format.rr),
   (0x05#8, Format.rr), (0x06#8, Format.rr), (0x07#8, Format.rr), (0x08#8, Format.rr), (0x09#8, Format.rr), (0x0A#8, Format.r),
   (0x10#8, Format.ri), (0x11#8, Format.rr), (0x12#8, Format.j), (0x13#8, Format.j), (0x14#8, Format.j), (0x15#8, Format.j),
   (0x16#8, Format.j), (0x17#8, Format.j), (0x18#8, Format.j)] ++
  [(0x30#8, Format.j), (0x31#8, Format.n), (0x32#8, Format.r), (0x33#8, Format.r), (0x40#8, Format.r), (0x41#8, Format.r),
   (0xE2#8, Format.rl), (0xE4#8, Format.ll), (0xE5#8, Format.ri), (0xFF#8, Format.n)]

/-- The format of an opcode, `none` for the 226 absent ones (30_encoding R82). -/
def formatOf (op : Byte) : Option Format := (opcodeTable.find? (·.1 == op)).map (·.2)

/-- The bits of the first word that have no effect on execution (30_encoding R71, R74, R75; R82 for
an unknown opcode). DEDUCED (notes/assumptions/11.md): the spec's decision D8. -/
def ignoredBits (op : Byte) : Word :=
  match formatOf op with
  | some .n => 0x00FFFFFF#32
  | some .r => 0x00F0FFFF#32
  | some .rr => 0x00F0F0FF#32
  | some .ri => 0x00F00000#32
  | some .j => 0x00FF0000#32
  | some .rl => 0x00F0FF00#32
  | some .ll => 0x00000000#32
  | none => 0x00FFFFFF#32

/-- The word with its ignored bits set to 0, as the assembler emits them (30_encoding R75, R97). -/
def canonicalise (w : Word) : Word := w &&& ~~~ ignoredBits (opcodeOf w)

/-- The optional check `canonical` of 93_implementation_defined U13: no ignored bit is set. -/
def canonicalWord (w : Word) : Bool := canonicalise w == w

/-- The optional check `no_ff_low_byte` of 93_implementation_defined U3 on a first word: both readings
of the source agree on whether it consumes a trailing word. -/
def noFFLowByteWord (w : Word) : Bool :=
  opcodeOf w == 0xE2#8 || opcodeOf w == 0xE4#8 || w.extractLsb' 0 8 != 0xFF#8

/-! ### The decoder (30_encoding R86) -/

/-- What the first word of an instruction says (30_encoding R86). -/
inductive Header where
  /-- A whole one-word instruction. -/
  | complete (i : Instr)
  /-- MOV imm32 of `d`: one literal follows (0xE2 with its sentinel). -/
  | needsLiteral (d : Reg)
  /-- STORE imm32: an address and a value literal follow (0xE4FFFFFF). -/
  | needsTwoLiterals
  /-- One of the 226 opcodes absent from the table (30_encoding R82). -/
  | unknown (op : Byte)
  /-- 0xE2 or 0xE4 without its sentinel (30_encoding R83). -/
  | reserved
deriving DecidableEq, Repr

/-- `decode(W)` of 30_encoding R86. DEDUCED: which words consume literals is told by the opcode alone
(R77, notes/assumptions/9.md), and a missing sentinel is reserved (R83, notes/assumptions/10.md). -/
def decodeHeader (w : Word) : Header :=
  match opcodeOf w with
  | 0x00#8 => .complete .nop
  | 0x01#8 => .complete (.movRR (fieldRa w) (fieldRb w))
  | 0x02#8 => .complete (.movI16 (fieldRa w) (fieldImm16 w))
  | 0x03#8 => .complete (.load (fieldRa w) (fieldRb w))
  | 0x04#8 => .complete (.store (fieldRa w) (fieldRb w))
  | 0x05#8 => .complete (.add (fieldRa w) (fieldRb w))
  | 0x06#8 => .complete (.sub (fieldRa w) (fieldRb w))
  | 0x07#8 => .complete (.and (fieldRa w) (fieldRb w))
  | 0x08#8 => .complete (.or (fieldRa w) (fieldRb w))
  | 0x09#8 => .complete (.xor (fieldRa w) (fieldRb w))
  | 0x0A#8 => .complete (.not (fieldRa w))
  | 0x10#8 => .complete (.cmpI16 (fieldRa w) (fieldImm16 w))
  | 0x11#8 => .complete (.cmpRR (fieldRa w) (fieldRb w))
  | 0x12#8 => .complete (.jmp (fieldImm16 w))
  | 0x13#8 => .complete (.jz (fieldImm16 w))
  | 0x14#8 => .complete (.jnz (fieldImm16 w))
  | 0x15#8 => .complete (.jl (fieldImm16 w))
  | 0x16#8 => .complete (.jg (fieldImm16 w))
  | 0x17#8 => .complete (.jle (fieldImm16 w))
  | 0x18#8 => .complete (.jge (fieldImm16 w))
  | 0x30#8 => .complete (.call (fieldImm16 w))
  | 0x31#8 => .complete .ret
  | 0x32#8 => .complete (.push (fieldRa w))
  | 0x33#8 => .complete (.pop (fieldRa w))
  | 0x40#8 => .complete (.inp (fieldRa w))
  | 0x41#8 => .complete (.out (fieldRa w))
  | 0xE2#8 => if sentinelRL w then .needsLiteral (fieldRa w) else .reserved
  | 0xE4#8 => if sentinelLL w then .needsTwoLiterals else .reserved
  | 0xE5#8 => .complete (.addI16 (fieldRa w) (fieldImm16 w))
  | 0xFF#8 => .complete .hlt
  | _ => .unknown (opcodeOf w)

/-- What a sequence of words begins with: an instruction and the words after it, or why not. -/
inductive Decoded where
  | instr (i : Instr) (rest : List Word)
  | unknown (op : Byte)
  | reserved (w : Word)
  /-- The words end before the instruction does. -/
  | truncated
deriving DecidableEq, Repr

/-- The decoder on a sequence of words: instruction word first, then the first literal, then the
second (30_encoding R73). -/
def decode : List Word → Decoded
  | [] => .truncated
  | w :: rest =>
    match decodeHeader w, rest with
    | .complete i, _ => .instr i rest
    | .needsLiteral d, l :: rest => .instr (.movI32 d l) rest
    | .needsTwoLiterals, a :: v :: rest => .instr (.storeI32 a v) rest
    | .unknown op, _ => .unknown op
    | .reserved, _ => .reserved w
    | _, _ => .truncated

/-! ### Lengths and the encoder (30_encoding R70, R71, R97) -/

/-- The number of words an instruction occupies (30_encoding R70, R77). -/
def Instr.words : Instr → Nat
  | .movI32 _ _ => 2
  | .storeI32 _ _ => 3
  | .nop | .movRR _ _ | .movI16 _ _ | .load _ _ | .store _ _ | .add _ _ | .sub _ _ | .and _ _
  | .or _ _ | .xor _ _ | .not _ | .cmpI16 _ _ | .cmpRR _ _ | .jmp _ | .jz _ | .jnz _ | .jl _
  | .jg _ | .jle _ | .jge _ | .call _ | .ret | .push _ | .pop _ | .inp _ | .out _
  | .addI16 _ _ | .hlt => 1

/-- The opcode byte of each instruction (30_encoding R80). -/
def Instr.opcode : Instr → Byte
  | .nop => 0x00 | .movRR _ _ => 0x01 | .movI16 _ _ => 0x02 | .load _ _ => 0x03
  | .store _ _ => 0x04 | .add _ _ => 0x05 | .sub _ _ => 0x06 | .and _ _ => 0x07
  | .or _ _ => 0x08 | .xor _ _ => 0x09 | .not _ => 0x0A | .cmpI16 _ _ => 0x10
  | .cmpRR _ _ => 0x11 | .jmp _ => 0x12 | .jz _ => 0x13 | .jnz _ => 0x14 | .jl _ => 0x15
  | .jg _ => 0x16 | .jle _ => 0x17 | .jge _ => 0x18 | .call _ => 0x30 | .ret => 0x31
  | .push _ => 0x32 | .pop _ => 0x33 | .inp _ => 0x40 | .out _ => 0x41
  | .movI32 _ _ => 0xE2 | .storeI32 _ _ => 0xE4 | .addI16 _ _ => 0xE5 | .hlt => 0xFF

/-- Format N: opcode, 24 zero bits (30_encoding R71, R75). -/
def wordN (op : Byte) : Word := op ++ 0#24

/-- Format R: opcode, `ra` in bits 19:16. -/
def wordR (op : Byte) (ra : Reg) : Word := op ++ 0#4 ++ ra ++ 0#16

/-- Format RR: opcode, `ra` in bits 19:16, `rb` in bits 11:8. -/
def wordRR (op : Byte) (ra rb : Reg) : Word := op ++ 0#4 ++ ra ++ 0#4 ++ rb ++ 0#8

/-- Format RI: opcode, `ra` in bits 19:16, `imm16` in bits 15:0. -/
def wordRI (op : Byte) (ra : Reg) (imm16 : Half) : Word := op ++ 0#4 ++ ra ++ imm16

/-- Format J: opcode, target in bits 15:0. -/
def wordJ (op : Byte) (target : Half) : Word := op ++ 0#8 ++ target

/-- Format RL: opcode, `ra` in bits 19:16, sentinel 0xFF in bits 7:0 (30_encoding R97). -/
def wordRL (op : Byte) (ra : Reg) : Word := op ++ 0#4 ++ ra ++ 0#8 ++ 0xFF#8

/-- Format LL: opcode, 24 one bits (30_encoding R97). -/
def wordLL (op : Byte) : Word := op ++ 0xFFFFFF#24

/-- The canonical words of an instruction, ignored bits 0 (30_encoding R75, R80, R97). -/
def encode : Instr → List Word
  | .nop => [wordN 0x00]
  | .movRR d s => [wordRR 0x01 d s]
  | .movI16 d imm16 => [wordRI 0x02 d imm16]
  | .load d a => [wordRR 0x03 d a]
  | .store v a => [wordRR 0x04 v a]
  | .add d s => [wordRR 0x05 d s]
  | .sub d s => [wordRR 0x06 d s]
  | .and d s => [wordRR 0x07 d s]
  | .or d s => [wordRR 0x08 d s]
  | .xor d s => [wordRR 0x09 d s]
  | .not d => [wordR 0x0A d]
  | .cmpI16 r imm16 => [wordRI 0x10 r imm16]
  | .cmpRR r s => [wordRR 0x11 r s]
  | .jmp t => [wordJ 0x12 t]
  | .jz t => [wordJ 0x13 t]
  | .jnz t => [wordJ 0x14 t]
  | .jl t => [wordJ 0x15 t]
  | .jg t => [wordJ 0x16 t]
  | .jle t => [wordJ 0x17 t]
  | .jge t => [wordJ 0x18 t]
  | .call t => [wordJ 0x30 t]
  | .ret => [wordN 0x31]
  | .push r => [wordR 0x32 r]
  | .pop r => [wordR 0x33 r]
  | .inp r => [wordR 0x40 r]
  | .out r => [wordR 0x41 r]
  | .movI32 d literal => [wordRL 0xE2 d, literal]
  | .storeI32 addr value => [wordLL 0xE4, addr, value]
  | .addI16 d imm16 => [wordRI 0xE5 d imm16]
  | .hlt => [wordN 0xFF]

/-! ### The host's view of the opcode table -/

/-- The three words of an instruction whose bits are `w`, bit 0 the least significant bit of the
first word, a later word's bits counted on from it; bits above `nbits` are 0. -/
def tableWords (nbits w : Nat) : List Word :=
  let bits := w % 2 ^ nbits
  [BitVec.ofNat 32 bits, BitVec.ofNat 32 (bits / 2 ^ 32), BitVec.ofNat 32 (bits / 2 ^ 64)]

/-- The instruction the decoder reads from the bits of a row of spec/opcode_table.json. -/
def decodeTableWord (nbits w : Nat) : Option Instr :=
  match decode (tableWords nbits w) with
  | .instr i _ => some i
  | .unknown _ | .reserved _ | .truncated => none

end Sys2Proof
end

