-- ==== Sys2Proof/Machine/Fetch.lean ====
section
/-! DEFINITION. The part of a step before the handler: the halted test, the fetch of the instruction
word, the literals and the advance of `pc` (40_step_cycle R100 lines 1 to 6, R101 to R104). -/

namespace Sys2Proof.Machine

/-- What a step finds before any handler runs. -/
inductive Fetched where
  /-- The engine is halted (40_step_cycle R100 line 1). -/
  | halted
  /-- The instruction to run and the state its handler starts from, `pc` past its last word. -/
  | run (i : Instr) (s : State)
  /-- A raised error or the soft halt of an unknown opcode. -/
  | stop (f : Fault)
  /-- The reserved word and its address (30_encoding R83). -/
  | reserved (word addr : Word)
deriving DecidableEq, Repr

/-- The literal of 0xE2: `pc <- A + 1`, read it, `pc <- A + 2`; an error leaves `pc = A + 1`
(40_step_cycle R102, R112). DEDUCED (notes/assumptions/20.md): the spec's decision D17. -/
def State.fetchLiteral (s : State) (d : Reg) : Fetched :=
  let s1 := s.setPc (s.pc + 1#32)
  match s1.memRead (s.pc + 1#32) with
  | .ok l => .run (.movI32 d l) (s.setPc (s.pc + 2#32))
  | .error f => .stop f

/-- The literals of 0xE4: read both, then `pc <- A + 3`; an error leaves `pc = A`
(40_step_cycle R102, R112). DEDUCED (notes/assumptions/20.md): the spec's decision D17. -/
def State.fetchTwoLiterals (s : State) : Fetched :=
  match s.memRead (s.pc + 1#32) with
  | .error f => .stop f
  | .ok a =>
    match s.memRead (s.pc + 2#32) with
    | .error f => .stop f
    | .ok v => .run (.storeI32 a v) (s.setPc (s.pc + 3#32))

/-- Literal fetch, `pc` advance and dispatch lookup for the word `w` read at `pc`
(40_step_cycle R102 to R104). The reserved test comes before the literal reads (60_exceptions R198). -/
def State.fetchRest (s : State) (w : Word) : Fetched :=
  match decodeHeader w with
  | .complete i => .run i (s.setPc (s.pc + 1#32))
  | .needsLiteral d => s.fetchLiteral d
  | .needsTwoLiterals => s.fetchTwoLiterals
  | .unknown op => .stop (s.softHalt op)
  | .reserved => .reserved w s.pc

/-- Lines 1 to 6 of the step (40_step_cycle R100). DEDUCED: a halted engine fetches nothing
(notes/assumptions/8.md), and a fetch outside memory raises MemoryAccessError (R101,
notes/assumptions/17.md). The word is read from memory at the time of the step, so an earlier store is
seen (20_memory R66, notes/assumptions/23.md). -/
def State.fetch (s : State) : Fetched :=
  if s.halted then .halted
  else
    match s.memRead s.pc with
    | .error f => .stop f
    | .ok w => s.fetchRest w

/-- The words of memory at `a` and upward, at most `n` of them, as far as memory reaches. -/
def State.wordsAt (s : State) (a : Word) : Nat → List Word
  | 0 => []
  | n + 1 =>
    match s.memRead a with
    | .ok w => w :: s.wordsAt (a + 1#32) n
    | .error _ => []

/-- Words placed at `a` and upward, as far as memory reaches. -/
def State.placeWords (s : State) (a : Word) : List Word → State
  | [] => s
  | w :: ws =>
    match s.memWrite a w with
    | .ok t => t.placeWords (a + 1#32) ws
    | .error _ => s

/-- `s` running, with the words of an instruction placed where the next step fetches: the placing
stands for loadProgram at `pc`, and `halted` is cleared because a halted engine fetches nothing
(DESIGN CHOICE, notes/assumptions/29.md). -/
def State.placeAtPc (s : State) (ws : List Word) : State :=
  { s with halted := false }.placeWords s.pc ws

end Sys2Proof.Machine
end

