-- ==== Sys2Proof/Machine/Step.lean ====
section
/-! DEFINITION. One step (40_step_cycle R100). `next` is `Ok` or, when the state is halted, `Halted`;
`fault` is `Error` or `UnknownOpcode`; `refused` is a reserved encoding (00_scope R15,
60_exceptions R202). -/

namespace Sys2Proof.Machine

/-- `step()`: a halted engine changes nothing; otherwise fetch, then run the handler
(40_step_cycle R100). -/
def step (s : State) : Host.Outcome State Fault Refusal :=
  match s.fetch with
  | .halted => .next s
  | .run i t => exec i t
  | .stop f => .fault f
  | .reserved w a => .refused (.reservedEncoding w a)

/-- `s` with the instruction whose bits are `w` stored where `step` fetches next (the host's word of
a row of spec/opcode_table.json, its literals zero words). -/
def State.withFetchWord (s : State) (nbits w : Nat) : State := s.placeAtPc (tableWords nbits w)

end Sys2Proof.Machine
end

