-- ==== Sys2Proof/WellFormed.lean ====
section
/-! DEFINITION. Checks on syntax. Operand ranges are carried by the types of `Instr`, so every
instruction is well formed as it stands (30_encoding R74, R76). What remains are the checks the spec
offers on programs: they restrict no meaning and no encoding. -/

namespace Sys2Proof

/-- The low byte of an immediate or target is not 0xFF. -/
def lowByteNotFF (h : Half) : Bool := h.extractLsb' 0 8 != 0xFF#8

/-- The optional check `no_ff_low_byte` of 93_implementation_defined U3: the canonical first word of
the instruction, when it is not 0xE2 or 0xE4, does not end in 0xFF, so that both readings of the
source about trailing words agree on it (70_reset_and_hazards R235). -/
def Instr.noFFLowByte : Instr → Bool
  | .movI16 _ imm16 | .cmpI16 _ imm16 | .addI16 _ imm16 => lowByteNotFF imm16
  | .jmp t | .jz t | .jnz t | .jl t | .jg t | .jle t | .jge t | .call t => lowByteNotFF t
  | .nop | .movRR _ _ | .load _ _ | .store _ _ | .add _ _ | .sub _ _ | .and _ _ | .or _ _
  | .xor _ _ | .not _ | .cmpRR _ _ | .ret | .push _ | .pop _ | .inp _ | .out _ | .movI32 _ _
  | .storeI32 _ _ | .hlt => true

/-- The launch premise of loadProgram: `base + n <= MEM_SIZE`, an unbounded sum
(70_reset_and_hazards R225, R227). -/
def programFits (memSize base : Word) (n : Nat) : Bool := decide (base.toNat + n ≤ memSize.toNat)

end Sys2Proof
end

