-- ==== Sys2Proof/Machine/HostOps.lean ====
section
/-! DEFINITION. The host's operations on an engine (70_reset_and_hazards R223): full reset,
loadProgram, the outcome of a step as the host sees it, run, and the snapshot accessors. Stopping a run
changes nothing (40_step_cycle R110) and needs no operation. -/

namespace Sys2Proof.Machine

/-- Full reset: a new instance with the same MEM_SIZE (70_reset_and_hazards R220, R222). -/
def State.fullReset (s : State) : State := State.construct s.memSize

/-- `loadProgram(words, base)`: write the words from `base` up, `pc <- base`, leave all else untouched,
`halted` included (70_reset_and_hazards R225, R226). A load that does not fit is refused: DEDUCED
(notes/assumptions/24.md), the spec's decision D23. -/
def State.loadProgram (s : State) (words : List Word) (base : Word) :
    Host.Outcome State Fault Refusal :=
  if programFits s.memSize base words.length then .next ((s.placeWords base words).setPc base)
  else .refused (.loadDoesNotFit base words.length)

/-! ### The outcome of a step (00_scope R15, 40_step_cycle R108) -/

/-- What `step()` returns or raises to the host (00_scope R15), and the model's refusal. -/
inductive StepResult where
  | ok
  | halted
  | unknownOpcode (op : Byte) (addr : Word)
  | memoryAccessError (addr : Word)
  | stackError (kind : StackErrorKind)
  | refused (r : Refusal)
deriving DecidableEq, Repr

/-- The result the host gets from an outcome (40_step_cycle R100 line 8, R108). -/
def stepResult : Host.Outcome State Fault Refusal → StepResult
  | .next t => if t.halted then .halted else .ok
  | .fault (.unknownOpcode op addr _) => .unknownOpcode op addr
  | .fault (.memoryAccessError addr _) => .memoryAccessError addr
  | .fault (.stackError kind _) => .stackError kind
  | .refused r => .refused r

/-- The state the host finds after an outcome, from which it may call `step` again
(40_step_cycle R112, R113); none after a refusal. -/
def stateAfter : Host.Outcome State Fault Refusal → Option State
  | .next t => some t
  | .fault f => some f.left
  | .refused _ => none

/-- How a run stands (40_step_cycle R109, R114). -/
inductive RunEnd where
  /-- The engine was found halted. -/
  | halted
  /-- Halted by an unknown opcode: a soft failure with its diagnostic. -/
  | unknownOpcode (op : Byte) (addr : Word)
  /-- An error propagated out of the run (spec decision D28). -/
  | error (f : Fault)
  | refused (r : Refusal)
  /-- Still running after the steps given. -/
  | unfinished
deriving DecidableEq, Repr

/-- `run()` for at most the given number of steps (40_step_cycle R109). DEDUCED
(notes/assumptions/28.md): the first error ends it; a run that never ends is unfinished at every
number. -/
def run : Nat → State → RunEnd × State
  | 0, s => (if s.halted then .halted else .unfinished, s)
  | n + 1, s =>
    if s.halted then (.halted, s)
    else
      match step s with
      | .next t => run n t
      | .fault (.unknownOpcode op addr t) => (.unknownOpcode op addr, t)
      | .fault f => (.error f, f.left)
      | .refused r => (.refused r, s)

/-! ### Snapshot accessors (70_reset_and_hazards R229) -/

/-- The names of the six flags (10_state R31). -/
inductive FlagName where
  | carry | zero | interrupt | sign | overflow | parity
deriving DecidableEq, Repr

/-- The flags in packed order from bit 0 upward (10_state R32). DEDUCED (notes/assumptions/25.md): the
spec's decision D4. -/
def Flags.byBit (f : Flags) : List (FlagName × Bool) :=
  [(.carry, f.carry), (.zero, f.zero), (.interrupt, f.interrupt), (.sign, f.sign),
   (.overflow, f.overflow), (.parity, f.parity)]

/-- The flags bitmask, an 8-bit value with bits 7:6 zero (10_state R32). -/
def Flags.packed (f : Flags) : Byte :=
  BitVec.ofNat 8 ((f.byBit.map (·.2)).foldr (fun b n => b.toNat + 2 * n) 0)

/-- The flag-name list: the names of the flags whose bit is 1 (10_state R31). -/
def Flags.names (f : Flags) : List FlagName := (f.byBit.filter (·.2)).map (·.1)

/-- The read-only snapshot but for the memory range (70_reset_and_hazards R229). -/
structure Snapshot where
  regs : Vector Word 16
  pc : Word
  sp : Word
  flags : Byte
  flagNames : List FlagName
  halted : Bool
deriving DecidableEq, Repr

/-- The snapshot of a state; it changes nothing (70_reset_and_hazards R229, 60_exceptions R208). -/
def State.snapshot (s : State) : Snapshot :=
  ⟨s.regs, s.pc, s.sp, s.flags.packed, s.flags.names, s.halted⟩

/-- The snapshot of the `n` memory words from `base`. A range past the end is refused: DEDUCED
(notes/assumptions/24.md), 93_implementation_defined U14. -/
def State.snapshotRange (s : State) (base : Word) (n : Nat) : Except Refusal (List Word) :=
  if base.toNat + n ≤ s.memSize.toNat then .ok (s.wordsAt base n)
  else .error (.rangeOutsideMemory base n)

end Sys2Proof.Machine
end

