-- ==== Sys2Proof/Safety.lean ====
section
/-! DEFINITION. What claims are stated in: the invariants of a state, the states a host can reach, a
run that ends as intended, and the words for "unchanged". -/

namespace Sys2Proof.Machine

/-! ### Invariants -/

/-- Memory is in its canonical form and lists no address `>= MEM_SIZE` (20_memory R50). -/
def State.memOk (s : State) : Bool := s.mem.wf && s.mem.inside s.memSize.toNat

/-- `0 <= sp <= MEM_SIZE` (10_state R30). -/
def State.spOk (s : State) : Bool := decide (s.sp ≤ s.memSize)

/-- CARRY, OVERFLOW, PARITY and INTERRUPT are 0 (10_state R34). -/
def Flags.inertClear (f : Flags) : Bool := !f.carry && !f.overflow && !f.parity && !f.interrupt

/-- Not both ZERO and SIGN (10_state R36). -/
def Flags.zsOk (f : Flags) : Bool := !(f.zero && f.sign)

/-- The engine's invariant: all of the above. -/
def State.Inv (s : State) : Bool := s.memOk && s.spOk && s.flags.inertClear && s.flags.zsOk

/-- The states the host can bring an engine to: construction with any MEM_SIZE, steps (also onward
from the state an error left, 40_step_cycle R113), loads and full resets (70_reset_and_hazards R223). -/
inductive Reachable : State → Prop where
  | construct (n : Word) : Reachable (State.construct n)
  | step {s t : State} : Reachable s → step s = .next t → Reachable t
  | error {s : State} {f : Fault} : Reachable s → Machine.step s = .fault f → Reachable f.left
  | load {s t : State} {ws : List Word} {base : Word} :
      Reachable s → s.loadProgram ws base = .next t → Reachable t
  | reset {s : State} : Reachable s → Reachable s.fullReset

/-! ### Runs -/

/-- The run from a running engine ends successfully within `n` steps: a step returns `Halted` by
executing HLT (40_step_cycle R114, 60_exceptions R202). An engine that is halted at the start executes
no HLT, so `run` on it returns `Halted` (R109) and yet is no successful run. -/
def endsHalted (n : Nat) (s : State) : Bool := !s.halted && (run n s).1 == .halted

/-! ### Launch premises (70_reset_and_hazards R232) -/

/-- What a claim about a program takes for granted of the engine it starts on
(70_reset_and_hazards R232). -/
structure Launch where
  /-- The bounds the claim sets on MEM_SIZE. -/
  minSize : Nat
  maxSize : Nat
  /-- The program's words, word i at `base + i`. -/
  words : List Word
  base : Word
  /-- The value of `sp`, and how many words below it the stack may grow into. -/
  sp : Word
  stackWords : Nat
  /-- Addresses, beside its own words, of the memory the program needs. -/
  data : List Nat
  /-- The registers the program reads before it writes them, with their values. -/
  regs : List (Reg × Word)
  /-- ZERO and SIGN where the program reads them before it writes them (10_state R35: no other flag
  is ever read). -/
  zero : Option Bool
  sign : Option Bool
deriving DecidableEq, Repr

/-- The addresses of the words the program needs. -/
def Launch.needed (l : Launch) : List Nat :=
  (List.range l.words.length).map (l.base.toNat + ·) ++ l.data

/-- The stack has room for its words, and none of them is a word the program needs
(70_reset_and_hazards R232, R236). -/
def Launch.stackClear (l : Launch) : Bool :=
  decide (l.stackWords ≤ l.sp.toNat) &&
    l.needed.all fun a => decide (a < l.sp.toNat - l.stackWords ∨ l.sp.toNat ≤ a)

/-- The program words are at `base .. base + n - 1`, inside memory. -/
def State.holdsProgram (s : State) (words : List Word) (base : Word) : Bool :=
  programFits s.memSize base words.length && s.wordsAt base words.length == words

/-- The launch premises hold (70_reset_and_hazards R232). -/
def State.launchOk (s : State) (l : Launch) : Bool :=
  decide (l.minSize ≤ s.memSize.toNat ∧ s.memSize.toNat ≤ l.maxSize) &&
    s.holdsProgram l.words l.base && s.pc == l.base && !s.halted && s.sp == l.sp && l.stackClear &&
    (l.regs.all fun p => s.reg p.1 == p.2) && (l.zero.all fun z => s.flags.zero == z) &&
    l.sign.all fun n => s.flags.sign == n

/-! ### Fetching -/

/-- The engine runs and its next fetch reads `w` (40_step_cycle R100 lines 1 to 3). -/
def State.Fetches (s : State) (w : Word) : Prop := s.halted = false ∧ s.memRead s.pc = .ok w

/-! ### What an instruction leaves unchanged -/

/-- Every general register reads as before. -/
def SameRegs (s t : State) : Prop := ∀ r, t.reg r = s.reg r

/-- Every general register but `d` reads as before. -/
def SameRegsBut (d : Reg) (s t : State) : Prop := ∀ r, r ≠ d → t.reg r = s.reg r

/-- Every word of memory reads as before. -/
def SameMem (s t : State) : Prop := ∀ a, t.mem.read a = s.mem.read a

/-- Every word of memory but the one at `a` reads as before. -/
def SameMemBut (a : Word) (s t : State) : Prop := ∀ b, b ≠ a.toNat → t.mem.read b = s.mem.read b

/-- The four inert flags are as before (10_state R34). -/
def SameInert (s t : State) : Prop :=
  t.flags.carry = s.flags.carry ∧ t.flags.interrupt = s.flags.interrupt ∧
    t.flags.overflow = s.flags.overflow ∧ t.flags.parity = s.flags.parity

/-- ZERO and SIGN are those of `res`, the other flags as before (42_alu R132). -/
def FlagsOf (res : Word) (s t : State) : Prop :=
  t.flags.zero = decide (res = 0#32) ∧ t.flags.sign = res.getLsbD 31 ∧ SameInert s t

/-- Everything but the general registers, the flags and memory is as before. -/
def SameControl (s t : State) : Prop :=
  t.pc = s.pc ∧ t.sp = s.sp ∧ t.halted = s.halted ∧ t.memSize = s.memSize

/-! ### Two runs compared -/

/-- The state with other flags. -/
def State.withFlags (s : State) (f : Flags) : State := { s with flags := f }

/-- The state with CARRY, INTERRUPT, OVERFLOW and PARITY replaced, ZERO and SIGN kept. -/
def State.withInert (s : State) (c i o p : Bool) : State :=
  s.withFlags ⟨c, s.flags.zero, i, s.flags.sign, o, p⟩

/-- A fault with the state it leaves replaced. -/
def Fault.mapLeft (g : State → State) : Fault → Fault
  | .memoryAccessError a left => .memoryAccessError a (g left)
  | .stackError k left => .stackError k (g left)
  | .unknownOpcode op a left => .unknownOpcode op a (g left)

/-- An outcome with every state in it replaced. -/
def mapOutcome (g : State → State) :
    Host.Outcome State Fault Refusal → Host.Outcome State Fault Refusal
  | .next t => .next (g t)
  | .fault f => .fault (f.mapLeft g)
  | .refused r => .refused r

end Sys2Proof.Machine
end

