-- ==== Sys2Proof/Certificates/Slice0/Obligations.lean ====
section
/-! DEFINITION. The statements for the provers. Each docstring names the part of the spec it
formalises; where a clause rests on a decision the spec marks as its own, or on a choice of the model,
the docstring says so and names the log entry. -/

open Sys2Proof Sys2Proof.Machine

/-! ### Decoding and encoding (30_encoding) -/

/-- Decoding the canonical words of any instruction gives it back and leaves the following words, for
every operand value (30_encoding sections 1 to 3). The opcode values inside 0x05-0x09 and 0x12-0x18 are
the spec's decision D9 (log 12). -/
def Obligations.DecodeOfEncodeIsTheInstruction : Prop :=
  ∀ (i : Instr) (rest : List Word), decode (encode i ++ rest) = .instr i rest

/-- Encoding a decoded instruction gives its words back with the ignored bits of the first word cleared
(30_encoding sections 2 and 5). Which bits are ignored is the spec's decision D8 (log 11). -/
def Obligations.EncodeOfDecodeClearsIgnoredBits : Prop :=
  ∀ (w : Word) (ws rest : List Word) (i : Instr),
    decode (w :: ws) = .instr i rest → encode i ++ rest = canonicalise w :: ws

/-- Words that differ only in ignored bits decode alike (30_encoding section 2, the spec's decision D8,
log 11). -/
def Obligations.IgnoredBitsDoNotChangeDecoding : Prop :=
  ∀ w v : Word, canonicalise w = canonicalise v → decodeHeader w = decodeHeader v

/-- A word is unknown exactly when its top byte lies in one of the six gaps of the opcode map
(30_encoding section 4; the 30 opcodes by the spec's decision D9, log 12). -/
def Obligations.UnknownExactlyInTheOpcodeGaps : Prop :=
  ∀ (w : Word) (op : Byte), decodeHeader w = .unknown op ↔
    op.toNat = w.toNat / 2 ^ 24 ∧
      ((0x0B ≤ op.toNat ∧ op.toNat ≤ 0x0F) ∨ (0x19 ≤ op.toNat ∧ op.toNat ≤ 0x2F) ∨
        (0x34 ≤ op.toNat ∧ op.toNat ≤ 0x3F) ∨ (0x42 ≤ op.toNat ∧ op.toNat ≤ 0xE1) ∨
        op.toNat = 0xE3 ∨ (0xE6 ≤ op.toNat ∧ op.toNat ≤ 0xFE))

/-- A word is reserved exactly when it has opcode 0xE2 or 0xE4 without its sentinel (30_encoding
section 4, the spec's decision D7, log 10). -/
def Obligations.ReservedExactlyWithoutSentinel : Prop :=
  ∀ w : Word, decodeHeader w = .reserved ↔
    (w.toNat / 2 ^ 24 = 0xE2 ∧ w.toNat % 2 ^ 8 ≠ 0xFF) ∨
      (w.toNat / 2 ^ 24 = 0xE4 ∧ w.toNat % 2 ^ 24 ≠ 0xFFFFFF)

/-- One word of each family, written out from 30_encoding section 3, decodes to its instruction: a
sanity check (the values inside the grouped ranges by the spec's decision D9, log 12). -/
def Obligations.SampleWordsDecode : Prop :=
  decode [0x03030200#32] = .instr (.load 3 2) [] ∧
  decode [0x04010200#32] = .instr (.store 1 2) [] ∧
  decode [0x06010200#32] = .instr (.sub 1 2) [] ∧
  decode [0x10010005#32] = .instr (.cmpI16 1 5) [] ∧
  decode [0x18000020#32] = .instr (.jge 0x20) [] ∧
  decode [0x33020000#32] = .instr (.pop 2) [] ∧
  decode [0xE20100FF#32, 0x12345678#32] = .instr (.movI32 1 0x12345678) [] ∧
  decode [0xE4FFFFFF#32, 0x41#32, 0xDEADBEEF#32] = .instr (.storeI32 0x41 0xDEADBEEF) [] ∧
  decode [0xFF123456#32, 7#32] = .instr .hlt [7]

/-! ### The step (40_step_cycle) -/

/-- When the words at `pc` decode to an instruction, a running engine's step is that instruction's
handler with `pc` moved past its words (40_step_cycle sections 1 and 2; for the jumps by conflict C1 and
the spec's decision D16, log 19). -/
def Obligations.StepRunsTheDecodedInstruction : Prop :=
  ∀ (s : State) (i : Instr) (rest : List Word), s.halted = false →
    decode (s.wordsAt s.pc 3) = .instr i rest →
    step s = exec i (s.setPc (s.pc + BitVec.ofNat 32 i.words))

/-- A step of a halted engine changes nothing (40_step_cycle section 1, the spec's decision D5,
log 8). -/
def Obligations.HaltedStepChangesNothing : Prop :=
  ∀ s : State, s.halted = true → step s = .next s

/-- A running engine whose `pc` is outside memory raises MemoryAccessError(pc) at fetch and nothing has
changed (40_step_cycle section 1, the spec's decision D14, log 17). -/
def Obligations.FetchOutsideMemoryRaises : Prop :=
  ∀ s : State, s.halted = false → s.memSize.toNat ≤ s.pc.toNat →
    step s = .fault (.memoryAccessError s.pc s)

/-- A literal that lies outside memory raises MemoryAccessError of its address: MOV_I32 leaves
`pc = A + 1`, STORE_I32 leaves `pc = A`, all else is unchanged (40_step_cycle sections 1 and 4, the
spec's decision D17, log 20). -/
def Obligations.LiteralOutsideMemoryRaises : Prop :=
  ∀ (s : State) (w : Word), s.Fetches w →
    (∀ d, decodeHeader w = .needsLiteral d → s.pc.toNat + 1 = s.memSize.toNat →
      step s = .fault (.memoryAccessError s.memSize (s.setPc s.memSize))) ∧
    (decodeHeader w = .needsTwoLiterals →
      (s.pc.toNat + 1 = s.memSize.toNat ∨ s.pc.toNat + 2 = s.memSize.toNat) →
      step s = .fault (.memoryAccessError s.memSize s))

/-- An opcode absent from the table halts softly: the outcome names the opcode and the address, `pc` is
past the word, `halted` is set, all else is unchanged (45_system, 60_exceptions sections 1 and 4). That
the model reports it as a fault carrying this state is the spec's decision D26 (log 7). -/
def Obligations.UnknownOpcodeHaltsSoftly : Prop :=
  ∀ (s : State) (w : Word), s.Fetches w → formatOf (opcodeOf w) = none →
    ∃ left, step s = .fault (.unknownOpcode (opcodeOf w) s.pc left) ∧
      left.halted = true ∧ left.pc = s.pc + 1#32 ∧ left.sp = s.sp ∧ left.flags = s.flags ∧
      left.memSize = s.memSize ∧ SameRegs s left ∧ SameMem s left

/-- A step that fetches a reserved word is refused by name (30_encoding section 4, the spec's decision
D7, log 10). -/
def Obligations.ReservedWordIsRefused : Prop :=
  ∀ (s : State) (w : Word), s.Fetches w → decodeHeader w = .reserved →
    step s = .refused (.reservedEncoding w s.pc)

/-- `pc` after a completed step, for every instruction (10_state section 3): the next sequential word,
the encoded target of a taken jump or call, or the popped word of RET. Targets are zero-extended by the
spec's decision D10 (log 13). -/
def Obligations.ProgramCounterAfterEachInstruction : Prop :=
  ∀ (s t : State) (i : Instr) (rest : List Word), s.halted = false →
    decode (s.wordsAt s.pc 3) = .instr i rest → step s = .next t →
    t.pc.toNat = match i with
      | .movI32 _ _ => s.pc.toNat + 2
      | .storeI32 _ _ => s.pc.toNat + 3
      | .jmp x | .call x => x.toNat
      | .jz x => if s.flags.zero = true then x.toNat else s.pc.toNat + 1
      | .jnz x => if s.flags.zero = false then x.toNat else s.pc.toNat + 1
      | .jl x => if s.flags.sign = true then x.toNat else s.pc.toNat + 1
      | .jg x =>
        if s.flags.sign = false ∧ s.flags.zero = false then x.toNat else s.pc.toNat + 1
      | .jle x => if s.flags.sign = true ∨ s.flags.zero = true then x.toNat else s.pc.toNat + 1
      | .jge x => if s.flags.sign = false ∨ s.flags.zero = true then x.toNat else s.pc.toNat + 1
      | .ret => (s.mem.read s.sp.toNat).toNat
      | _ => s.pc.toNat + 1

/-! ### Instruction rules from the word to the state -/

/-- 41_data_movement R120: MOV rd, rs from its word to the state after the step, whatever its ignored
bits. -/
def Obligations.MovRegisterStep : Prop :=
  ∀ (s : State) (w : Word), s.Fetches w → w.extractLsb' 24 8 = 0x01#8 →
    ∃ t, step s = .next t ∧
      t.reg (w.extractLsb' 16 4) = s.reg (w.extractLsb' 8 4) ∧
      SameRegsBut (w.extractLsb' 16 4) s t ∧ SameMem s t ∧ t.flags = s.flags ∧
      t.pc = s.pc + 1#32 ∧ t.sp = s.sp ∧ t.halted = false ∧ t.memSize = s.memSize

/-- 41_data_movement R123: LOAD from its word, both the completed case and the error. -/
def Obligations.LoadStep : Prop :=
  ∀ (s : State) (w : Word), s.Fetches w → w.extractLsb' 24 8 = 0x03#8 →
    (s.reg (w.extractLsb' 8 4) < s.memSize →
      ∃ t, step s = .next t ∧
        t.reg (w.extractLsb' 16 4) = s.mem.read (s.reg (w.extractLsb' 8 4)).toNat ∧
        SameRegsBut (w.extractLsb' 16 4) s t ∧ SameMem s t ∧ t.flags = s.flags ∧
        t.pc = s.pc + 1#32 ∧ t.sp = s.sp ∧ t.halted = false ∧ t.memSize = s.memSize) ∧
    (s.memSize ≤ s.reg (w.extractLsb' 8 4) →
      ∃ left, step s = .fault (.memoryAccessError (s.reg (w.extractLsb' 8 4)) left) ∧
        SameRegs s left ∧ SameMem s left ∧ left.flags = s.flags ∧ left.pc = s.pc + 1#32 ∧
        left.sp = s.sp ∧ left.halted = false ∧ left.memSize = s.memSize)

/-- 41_data_movement R124: STORE from its word, both the completed case and the error. Bits 23:16 name
the value register, bits 15:8 the address register. -/
def Obligations.StoreStep : Prop :=
  ∀ (s : State) (w : Word), s.Fetches w → w.extractLsb' 24 8 = 0x04#8 →
    (s.reg (w.extractLsb' 8 4) < s.memSize →
      ∃ t, step s = .next t ∧
        t.mem.read (s.reg (w.extractLsb' 8 4)).toNat = s.reg (w.extractLsb' 16 4) ∧
        SameMemBut (s.reg (w.extractLsb' 8 4)) s t ∧ SameRegs s t ∧ t.flags = s.flags ∧
        t.pc = s.pc + 1#32 ∧ t.sp = s.sp ∧ t.halted = false ∧ t.memSize = s.memSize) ∧
    (s.memSize ≤ s.reg (w.extractLsb' 8 4) →
      ∃ left, step s = .fault (.memoryAccessError (s.reg (w.extractLsb' 8 4)) left) ∧
        SameRegs s left ∧ SameMem s left ∧ left.flags = s.flags ∧ left.pc = s.pc + 1#32 ∧
        left.sp = s.sp ∧ left.halted = false ∧ left.memSize = s.memSize)

/-- 44_stack_call R170: PUSH from its word, both the completed case and the overflow. The premise
`0 <= sp <= MEM_SIZE` is the model's invariant (`StepKeepsTheInvariant`). -/
def Obligations.PushStep : Prop :=
  ∀ (s : State) (w : Word), s.spOk = true → s.Fetches w → w.extractLsb' 24 8 = 0x32#8 →
    (s.sp ≠ 0#32 →
      ∃ t, step s = .next t ∧ t.sp = s.sp - 1#32 ∧
        t.mem.read (s.sp - 1#32).toNat = s.reg (w.extractLsb' 16 4) ∧
        SameMemBut (s.sp - 1#32) s t ∧ SameRegs s t ∧ t.flags = s.flags ∧
        t.pc = s.pc + 1#32 ∧ t.halted = false ∧ t.memSize = s.memSize) ∧
    (s.sp = 0#32 →
      ∃ left, step s = .fault (.stackError .overflow left) ∧
        left.sp = s.sp ∧ SameRegs s left ∧ SameMem s left ∧ left.flags = s.flags ∧
        left.pc = s.pc + 1#32 ∧ left.halted = false ∧ left.memSize = s.memSize)

/-- 44_stack_call R171: POP from its word, both the completed case and the underflow. -/
def Obligations.PopStep : Prop :=
  ∀ (s : State) (w : Word), s.Fetches w → w.extractLsb' 24 8 = 0x33#8 →
    (s.sp < s.memSize →
      ∃ t, step s = .next t ∧ t.reg (w.extractLsb' 16 4) = s.mem.read s.sp.toNat ∧
        t.sp = s.sp + 1#32 ∧ SameRegsBut (w.extractLsb' 16 4) s t ∧ SameMem s t ∧
        t.flags = s.flags ∧ t.pc = s.pc + 1#32 ∧ t.halted = false ∧ t.memSize = s.memSize) ∧
    (s.memSize ≤ s.sp →
      ∃ left, step s = .fault (.stackError .underflow left) ∧
        left.sp = s.sp ∧ SameRegs s left ∧ SameMem s left ∧ left.flags = s.flags ∧
        left.pc = s.pc + 1#32 ∧ left.halted = false ∧ left.memSize = s.memSize)

/-- 45_system R180, R182, R183: NOP, IN and OUT from their words do nothing but advance `pc`. -/
def Obligations.NopInOutStep : Prop :=
  ∀ (s : State) (w : Word), s.Fetches w →
    (w.extractLsb' 24 8 = 0x00#8 ∨ w.extractLsb' 24 8 = 0x40#8 ∨ w.extractLsb' 24 8 = 0x41#8) →
    ∃ t, step s = .next t ∧ SameRegs s t ∧ SameMem s t ∧ t.flags = s.flags ∧
      t.pc = s.pc + 1#32 ∧ t.sp = s.sp ∧ t.halted = false ∧ t.memSize = s.memSize

/-- HLT from its word sets `halted`, advances `pc` past the word and changes nothing else, the step's
outcome is `Halted`, and further steps do nothing (45_system). That a step of a halted engine does
nothing is the spec's decision D5 (log 8). -/
def Obligations.HltStep : Prop :=
  ∀ (s : State) (w : Word), s.Fetches w → w.extractLsb' 24 8 = 0xFF#8 →
    stepResult (step s) = .halted ∧
    ∃ t, step s = .next t ∧ t.halted = true ∧ t.pc = s.pc + 1#32 ∧ SameRegs s t ∧ SameMem s t ∧
      t.flags = s.flags ∧ t.sp = s.sp ∧ t.memSize = s.memSize ∧ step t = .next t

/-! ### Every instruction completes, with its result and its frame -/

/-- The three MOVs complete in every state: the destination holds the source register, the zero-extended
constant (the spec's decision D10, log 13) or the literal, and nothing else changes
(41_data_movement). -/
def Obligations.MovesComplete : Prop :=
  ∀ (s : State) (d r : Reg) (k : Half) (l : Word),
    ∀ p ∈ [(Instr.movRR d r, s.reg r), (Instr.movI16 d k, BitVec.ofNat 32 k.toNat),
      (Instr.movI32 d l, l)],
    ∃ t, exec p.1 s = .next t ∧ t.reg d = p.2 ∧ SameRegsBut d s t ∧ SameMem s t ∧
      t.flags = s.flags ∧ SameControl s t

/-- LOAD completes when its address is inside memory: the destination holds the word read, and nothing
else changes (41_data_movement). -/
def Obligations.LoadCompletes : Prop :=
  ∀ (s : State) (d a : Reg), s.reg a < s.memSize →
    ∃ t, exec (.load d a) s = .next t ∧ t.reg d = s.mem.read (s.reg a).toNat ∧
      SameRegsBut d s t ∧ SameMem s t ∧ t.flags = s.flags ∧ SameControl s t

/-- STORE and STORE_I32 complete when their address is inside memory: the word there is the value, and
no other word, register or flag changes (41_data_movement). -/
def Obligations.StoresComplete : Prop :=
  ∀ (s : State) (v a : Reg) (addr value : Word),
    ∀ p ∈ [(Instr.store v a, s.reg a, s.reg v), (Instr.storeI32 addr value, addr, value)],
    p.2.1 < s.memSize →
    ∃ t, exec p.1 s = .next t ∧ t.mem.read p.2.1.toNat = p.2.2 ∧ SameMemBut p.2.1 s t ∧
      SameRegs s t ∧ t.flags = s.flags ∧ SameControl s t

/-- ADD, SUB, AND, OR, XOR, NOT and ADD_I16 complete in every state: the destination holds the result,
ZERO and SIGN follow it, the other flags and everything else are unchanged (42_alu). SUB's operand order
is the spec's decision D11 (log 14), NOT's meaning D25 (log 26), the extension D10 (log 13), the flags of
ADD_I16 D13 (log 16). -/
def Obligations.AluInstructionsComplete : Prop :=
  ∀ (s : State) (d r : Reg) (k : Half),
    ∀ p ∈ [(Instr.add d r, s.reg d + s.reg r), (Instr.sub d r, s.reg d - s.reg r),
      (Instr.and d r, s.reg d &&& s.reg r), (Instr.or d r, s.reg d ||| s.reg r),
      (Instr.xor d r, s.reg d ^^^ s.reg r), (Instr.not d, ~~~ s.reg d),
      (Instr.addI16 d k, s.reg d + BitVec.ofNat 32 k.toNat)],
    ∃ t, exec p.1 s = .next t ∧ t.reg d = p.2 ∧ FlagsOf p.2 s t ∧ SameRegsBut d s t ∧
      SameMem s t ∧ SameControl s t

/-- CMP_I16 and CMP_RR complete in every state: ZERO and SIGN follow first minus second (the spec's
decision D12, log 15), and nothing else changes (43_compare_branch section 1). -/
def Obligations.ComparesComplete : Prop :=
  ∀ (s : State) (r q : Reg) (k : Half),
    ∀ p ∈ [(Instr.cmpI16 r k, s.reg r - BitVec.ofNat 32 k.toNat),
      (Instr.cmpRR r q, s.reg r - s.reg q)],
    ∃ t, exec p.1 s = .next t ∧ FlagsOf p.2 s t ∧ SameRegs s t ∧ SameMem s t ∧ SameControl s t

/-- The seven jumps complete in every state: `pc` is the zero-extended target (the spec's decision D10,
log 13) when the condition on ZERO and SIGN holds and stays as fetch left it otherwise, and nothing else
changes (43_compare_branch section 2). -/
def Obligations.JumpsComplete : Prop :=
  ∀ (s : State) (x : Half),
    ∀ p ∈ [(Instr.jmp x, true), (Instr.jz x, s.flags.zero), (Instr.jnz x, !s.flags.zero),
      (Instr.jl x, s.flags.sign), (Instr.jg x, !s.flags.sign && !s.flags.zero),
      (Instr.jle x, s.flags.sign || s.flags.zero), (Instr.jge x, !s.flags.sign || s.flags.zero)],
    ∃ t, exec p.1 s = .next t ∧
      t.pc = (if p.2 = true then BitVec.ofNat 32 x.toNat else s.pc) ∧
      SameRegs s t ∧ SameMem s t ∧ t.flags = s.flags ∧ t.sp = s.sp ∧ t.halted = s.halted ∧
      t.memSize = s.memSize

/-- PUSH and CALL complete when the stack has room: `sp` is one less, the word at the new `sp` is the
register or the return address, CALL's `pc` is its zero-extended target (D10, log 13), and nothing else
changes (44_stack_call; CALL's check is the spec's decision D15, log 18). -/
def Obligations.PushAndCallComplete : Prop :=
  ∀ (s : State) (r : Reg) (x : Half), s.sp ≠ 0#32 → s.spOk = true →
    ∀ p ∈ [(Instr.push r, s.reg r, s.pc), (Instr.call x, s.pc, BitVec.ofNat 32 x.toNat)],
    ∃ t, exec p.1 s = .next t ∧ t.sp = s.sp - 1#32 ∧
      t.mem.read (s.sp - 1#32).toNat = p.2.1 ∧ SameMemBut (s.sp - 1#32) s t ∧ t.pc = p.2.2 ∧
      SameRegs s t ∧ t.flags = s.flags ∧ t.halted = s.halted ∧ t.memSize = s.memSize

/-- POP and RET complete when the stack is not empty: `sp` is one more, POP's register or RET's `pc`
holds the word that was on top, and nothing else changes (44_stack_call; RET's check is the spec's
decision D15, log 18). -/
def Obligations.PopAndRetComplete : Prop :=
  ∀ (s : State) (r : Reg), s.sp < s.memSize →
    (∃ t, exec (.pop r) s = .next t ∧ t.reg r = s.mem.read s.sp.toNat ∧ t.sp = s.sp + 1#32 ∧
      SameRegsBut r s t ∧ t.pc = s.pc ∧ SameMem s t ∧ t.flags = s.flags ∧
      t.halted = s.halted ∧ t.memSize = s.memSize) ∧
    (∃ t, exec .ret s = .next t ∧ t.pc = s.mem.read s.sp.toNat ∧ t.sp = s.sp + 1#32 ∧
      SameRegs s t ∧ SameMem s t ∧ t.flags = s.flags ∧
      t.halted = s.halted ∧ t.memSize = s.memSize)

/-- NOP, IN, OUT and HLT complete in every state and change nothing, but that HLT sets `halted`
(45_system). -/
def Obligations.SystemInstructionsComplete : Prop :=
  ∀ (s : State) (r : Reg),
    ∀ p ∈ [(Instr.nop, s.halted), (Instr.inp r, s.halted), (Instr.out r, s.halted),
      (Instr.hlt, true)],
    ∃ t, exec p.1 s = .next t ∧ t.halted = p.2 ∧ SameRegs s t ∧ SameMem s t ∧
      t.flags = s.flags ∧ t.pc = s.pc ∧ t.sp = s.sp ∧ t.memSize = s.memSize

/-- The faults of every handler, exactly: LOAD and the STOREs on a bad address, PUSH and CALL at
`sp = 0`, POP and RET at `sp >= MEM_SIZE`, the state untouched, and no other instruction
(60_exceptions section 1; CALL and RET by the spec's decision D15, log 18). -/
def Obligations.FaultsOfEachInstruction : Prop :=
  ∀ (i : Instr) (s : State) (f : Fault), s.spOk = true →
    (exec i s = .fault f ↔ match i with
      | .load _ a | .store _ a =>
        s.memSize ≤ s.reg a ∧ f = .memoryAccessError (s.reg a) s
      | .storeI32 a _ => s.memSize ≤ a ∧ f = .memoryAccessError a s
      | .push _ | .call _ => s.sp = 0#32 ∧ f = .stackError .overflow s
      | .pop _ | .ret => s.sp = s.memSize ∧ f = .stackError .underflow s
      | _ => False)

/-- 10_state R22: a register is one cell of 32 bits; a load replaces the whole value, a read returns it,
and nothing else in the engine is touched: no other register, `pc`, `sp`, flags, `halted`, memory or
MEM_SIZE. -/
def Obligations.RegisterCells : Prop :=
  ∀ (s : State) (d : Reg) (v : Word),
    (s.setReg d v).reg d = v ∧ SameRegsBut d s (s.setReg d v) ∧ (s.setReg d v).pc = s.pc ∧
      (s.setReg d v).sp = s.sp ∧ (s.setReg d v).flags = s.flags ∧
      (s.setReg d v).halted = s.halted ∧ (s.setReg d v).mem = s.mem ∧
      (s.setReg d v).memSize = s.memSize ∧
      (∀ r, r ≠ d → ∀ u, (s.setReg d v).setReg r u = (s.setReg r u).setReg d v) ∧
      (∀ u, (s.setReg d u).setReg d v = s.setReg d v) ∧ s.setReg d (s.reg d) = s

/-- After each of the seven ALU-routed instructions that write a register (the two CMP forms are in
`ComparesComplete`) ZERO says whether the result, which is the destination's new value, is 0, SIGN is
its bit 31, and the other four flags are as before (42_alu section 1). That ADD imm16 is one of them is
the spec's decision D13 (log 16). -/
def Obligations.AluFlagsFollowTheResult : Prop :=
  ∀ (s : State) (d r : Reg) (k : Half),
    ∀ i ∈ [Instr.add d r, .sub d r, .and d r, .or d r, .xor d r, .not d, .addI16 d k],
    ∃ t, exec i s = .next t ∧ (t.flags.zero = true ↔ t.reg d = 0#32) ∧
      t.flags.sign = (t.reg d).getLsbD 31 ∧ SameInert s t

/-- 43_compare_branch R154: when each jump is taken, for all four values of ZERO and SIGN. Taken means
that the step moves `pc` to the target, not taken that it does nothing more. -/
def Obligations.JumpsTakenWhen : Prop :=
  ∀ (s : State) (x : Half),
    ∀ p ∈ [(Instr.jmp x, True), (Instr.jz x, s.flags.zero = true),
      (Instr.jnz x, s.flags.zero = false), (Instr.jl x, s.flags.sign = true),
      (Instr.jg x, s.flags.sign = false ∧ s.flags.zero = false),
      (Instr.jle x, s.flags.sign = true ∨ s.flags.zero = true),
      (Instr.jge x, s.flags.sign = false ∨ s.flags.zero = true)],
    (p.2 → exec p.1 s = .next (s.setPc (zext32 x))) ∧ (¬ p.2 → exec p.1 s = .next s)

/-! ### Whole-machine rules -/

/-- The instructions with a destination register, and that register (10_state section 2). -/
def Sys2Proof.Instr.dest : Instr → Option Reg
  | .movRR d _ | .movI16 d _ | .movI32 d _ | .load d _ | .add d _ | .sub d _ | .and d _ | .or d _
  | .xor d _ | .not d | .addI16 d _ | .pop d => some d
  | .nop | .store _ _ | .cmpI16 _ _ | .cmpRR _ _ | .jmp _ | .jz _ | .jnz _ | .jl _ | .jg _ | .jle _
  | .jge _ | .call _ | .ret | .push _ | .inp _ | .out _ | .storeI32 _ _ | .hlt => none

/-- No instruction writes a general register other than its destination (10_state sections 2 and
10). -/
def Obligations.OnlyTheDestinationRegisterChanges : Prop :=
  ∀ (i : Instr) (s t : State), exec i s = .next t →
    ∀ r, i.dest ≠ some r → t.reg r = s.reg r

/-- Which instructions write flags, and what they write: ZERO and SIGN of the 32-bit result, the other
four unchanged; every other instruction leaves all six (10_state section 5). The spec's decisions it
rests on: the zero-extended constants of ADD_I16 and CMP_I16 D10 (log 13), SUB's order D11 (log 14), the
compares' result D12 (log 15), ADD_I16's update D13 (log 16), NOT as complement D25 (log 26). -/
def Obligations.OnlyAluAndComparesWriteFlags : Prop :=
  ∀ (i : Instr) (s t : State), exec i s = .next t →
    match i with
    | .add d r => FlagsOf (s.reg d + s.reg r) s t
    | .sub d r => FlagsOf (s.reg d - s.reg r) s t
    | .and d r => FlagsOf (s.reg d &&& s.reg r) s t
    | .or d r => FlagsOf (s.reg d ||| s.reg r) s t
    | .xor d r => FlagsOf (s.reg d ^^^ s.reg r) s t
    | .not d => FlagsOf (~~~ s.reg d) s t
    | .addI16 d k => FlagsOf (s.reg d + BitVec.ofNat 32 k.toNat) s t
    | .cmpI16 r k => FlagsOf (s.reg r - BitVec.ofNat 32 k.toNat) s t
    | .cmpRR r q => FlagsOf (s.reg r - s.reg q) s t
    | _ => t.flags = s.flags

/-- 10_state R34: CARRY, OVERFLOW, PARITY and INTERRUPT are neither written nor read: a step commutes
with replacing them. They are 0 at reset and in every reachable state. -/
def Obligations.InertFlagsAreNeverWrittenOrRead : Prop :=
  (∀ (s : State) (c i o p : Bool),
    step (s.withInert c i o p) = mapOutcome (fun t => t.withInert c i o p) (step s)) ∧
  (∀ n : Word, (State.construct n).flags.inertClear = true) ∧
  (∀ s : State, Reachable s → s.flags.inertClear = true)

/-- The six conditional jumps (10_state R35). -/
def Sys2Proof.Instr.readsFlags : Instr → Bool
  | .jz _ | .jnz _ | .jl _ | .jg _ | .jle _ | .jge _ => true
  | .nop | .movRR _ _ | .movI16 _ _ | .load _ _ | .store _ _ | .add _ _ | .sub _ _ | .and _ _
  | .or _ _ | .xor _ _ | .not _ | .cmpI16 _ _ | .cmpRR _ _ | .jmp _ | .call _ | .ret | .push _
  | .pop _ | .inp _ | .out _ | .movI32 _ _ | .storeI32 _ _ | .addI16 _ _ | .hlt => false

/-- 10_state R35: no instruction but the six conditional jumps does anything that depends on the flags
(its outcome but for the flags themselves is the same under all flags), and the six depend on ZERO and
SIGN alone. -/
def Obligations.OnlyConditionalJumpsReadFlags : Prop :=
  ∀ (i : Instr) (s : State) (f : Flags),
    (i.readsFlags = false → ∀ g : Flags,
      mapOutcome (fun t => t.withFlags g) (exec i (s.withFlags f)) =
        mapOutcome (fun t => t.withFlags g) (exec i s)) ∧
    (i.readsFlags = true → f.zero = s.flags.zero → f.sign = s.flags.sign →
      exec i (s.withFlags f) = mapOutcome (fun t => t.withFlags f) (exec i s))

/-- Only PUSH, CALL, POP and RET move `sp`, each by one and within the stack's bounds (10_state
section 4, 44_stack_call; the checks of CALL and RET by the spec's decision D15, log 18). -/
def Obligations.OnlyStackInstructionsMoveSp : Prop :=
  ∀ (i : Instr) (s t : State), exec i s = .next t →
    match i with
    | .push _ | .call _ => 0 < s.sp.toNat ∧ t.sp.toNat + 1 = s.sp.toNat
    | .pop _ | .ret => s.sp.toNat < s.memSize.toNat ∧ t.sp.toNat = s.sp.toNat + 1
    | _ => t.sp = s.sp

/-- Only HLT sets `halted`, and no instruction clears it (10_state section 6). -/
def Obligations.OnlyHltSetsHalted : Prop :=
  ∀ (i : Instr) (s t : State), exec i s = .next t →
    t.halted = (s.halted || i == .hlt)

/-- In a step of a running engine `halted` becomes 1 exactly by HLT or by the dispatch of an absent
opcode; a step of a halted engine changes nothing; loadProgram leaves the bit unchanged and a full reset
clears it (10_state section 6). That a step of a halted engine changes nothing is the spec's decision D5
(log 8); that the soft halt is a fault that carries the state is D26 (log 7). -/
def Obligations.HaltedBitRules : Prop :=
  ∀ s : State,
    (s.halted = false →
      (∀ t, step s = .next t → (t.halted = true ↔ s.Fetches (s.mem.read s.pc.toNat) ∧
        opcodeOf (s.mem.read s.pc.toNat) = 0xFF#8)) ∧
      (∀ f, step s = .fault f → (f.left.halted = true ↔ s.Fetches (s.mem.read s.pc.toNat) ∧
        formatOf (opcodeOf (s.mem.read s.pc.toNat)) = none))) ∧
    (s.halted = true → step s = .next s) ∧
    (∀ ws base t, s.loadProgram ws base = .next t → t.halted = s.halted) ∧
    s.fullReset.halted = false

/-- Only STORE, STORE_I32, PUSH and CALL write memory, each one word inside memory, at the address its
operands give (20_memory section 3). -/
def Obligations.OnlyStoresWriteMemory : Prop :=
  ∀ (i : Instr) (s t : State), exec i s = .next t →
    match i with
    | .store _ a => s.reg a < s.memSize ∧ SameMemBut (s.reg a) s t
    | .storeI32 a _ => a < s.memSize ∧ SameMemBut a s t
    | .push _ | .call _ => s.sp - 1#32 < s.memSize ∧ SameMemBut (s.sp - 1#32) s t
    | _ => SameMem s t

/-- A raised error leaves everything but `pc` as it was at the start of the step, and `pc` at A, A + 1
or A + 3 (40_step_cycle section 4, 60_exceptions section 2; the values of `pc` by the spec's decision
D17, logs 6 and 20). -/
def Obligations.ErrorsLeaveAllButPc : Prop :=
  ∀ (s : State) (f : Fault), s.spOk = true → step s = .fault f →
    (∀ op a left, f ≠ .unknownOpcode op a left) →
    f.left.setPc s.pc = s ∧
      (f.left.pc = s.pc ∨ f.left.pc = s.pc + 1#32 ∨ f.left.pc = s.pc + 3#32)

/-- The memory primitives, 20_memory R52 and R53: the bounds check, the read with no effect, and the
write that replaces one word and leaves every other as it was. -/
def Obligations.MemoryPrimitives : Prop :=
  ∀ (s : State) (a v : Word),
    (s.memSize ≤ a → s.memRead a = .error (.memoryAccessError a s) ∧
      s.memWrite a v = .error (.memoryAccessError a s)) ∧
    (a < s.memSize → s.memRead a = .ok (s.mem.read a.toNat) ∧
      ∃ t, s.memWrite a v = .ok t ∧ t.memRead a = .ok v ∧
        (∀ b, b ≠ a → b < s.memSize → ∃ w, s.memRead b = .ok w ∧ t.memRead b = .ok w) ∧
        SameMemBut a s t ∧ SameRegs s t ∧ t.flags = s.flags ∧ SameControl s t)

/-- The ALU as exact arithmetic narrowed to 32 bits (42_alu section 1): no trap, no saturation, the
carry and borrow discarded (SUB's order and NOT by the spec's decisions D11 and D25, logs 14 and 26). -/
def Obligations.AluIsWraparoundArithmetic : Prop :=
  ∀ a b : Word,
    (alu .add a b).toNat = (if a.toNat + b.toNat < 2 ^ 32 then a.toNat + b.toNat
      else a.toNat + b.toNat - 2 ^ 32) ∧
    (alu .sub a b).toNat = (if b.toNat ≤ a.toNat then a.toNat - b.toNat
      else a.toNat + 2 ^ 32 - b.toNat) ∧
    (alu .not a b).toNat = 0xFFFFFFFF - a.toNat ∧
    (∀ k, k < 32 →
      (alu .and a b).getLsbD k = (a.getLsbD k && b.getLsbD k) ∧
      (alu .or a b).getLsbD k = (a.getLsbD k || b.getLsbD k) ∧
      (alu .xor a b).getLsbD k = (a.getLsbD k != b.getLsbD k))

/-- What ZERO and SIGN mean after CMP_RR (43_compare_branch section 1): ZERO says equal, and SIGN says
less in the two's-complement reading while the exact difference fits 32 bits, and the opposite
otherwise (CMP as subtraction is the spec's decision D12, log 15). -/
def Obligations.CompareFlagsReadAsSigned : Prop :=
  ∀ (s t : State) (p q : Reg), exec (.cmpRR p q) s = .next t →
    (t.flags.zero = true ↔ s.reg p = s.reg q) ∧
    (-(2 ^ 31) ≤ (s.reg p).toInt - (s.reg q).toInt ∧
      (s.reg p).toInt - (s.reg q).toInt < 2 ^ 31 →
      (t.flags.sign = true ↔ (s.reg p).toInt < (s.reg q).toInt)) ∧
    (¬ (-(2 ^ 31) ≤ (s.reg p).toInt - (s.reg q).toInt ∧
      (s.reg p).toInt - (s.reg q).toInt < 2 ^ 31) →
      (t.flags.sign = true ↔ (s.reg q).toInt < (s.reg p).toInt))

/-- JLE is taken exactly when JG is not, in every state; JGE is taken exactly when JL is not wherever
ZERO and SIGN are not both set, and both are taken where they are (43_compare_branch section 2,
93_implementation_defined U1). -/
def Obligations.JumpConditionsRelated : Prop :=
  ∀ f : Flags,
    Cond.le.holds f = !Cond.g.holds f ∧
    (f.zsOk = true → Cond.ge.holds f = !Cond.l.holds f) ∧
    (f.zsOk = false → Cond.ge.holds f = true ∧ Cond.l.holds f = true)

/-- A popped word is the last one pushed and `sp` is back: PUSH p, PUSH q, POP a, POP b put q's value
in a and p's in b (10_state section 4, 95_test_vectors T5). -/
def Obligations.StackIsLastInFirstOut : Prop :=
  ∀ (s : State) (p q a b : Reg), s.spOk = true → 2 ≤ s.sp.toNat → a ≠ b →
    ∃ s1 s2 s3 t, exec (.push p) s = .next s1 ∧ exec (.push q) s1 = .next s2 ∧
      exec (.pop a) s2 = .next s3 ∧ exec (.pop b) s3 = .next t ∧
      t.reg a = s.reg q ∧ t.reg b = s.reg p ∧ t.sp = s.sp

/-- RET after CALL, with `sp` and the stack word back as CALL left them, resumes at the instruction
after the CALL, whatever else has changed (44_stack_call, 95_test_vectors T9; the checks by the spec's
decision D15, log 18). -/
def Obligations.RetReturnsAfterCall : Prop :=
  ∀ (s t u : State) (x : Half), exec (.call x) s = .next t → u.sp = t.sp →
    u.memSize = t.memSize → u.mem.read t.sp.toNat = t.mem.read t.sp.toNat →
    ∃ v, exec .ret u = .next v ∧ v.pc = s.pc ∧ v.sp = s.sp ∧ SameRegs u v ∧ SameMem u v ∧
      v.flags = u.flags

/-- A stored word is what the next fetch from its address reads, with no barrier (20_memory section 5,
the spec's decision D22, log 23). -/
def Obligations.StoredWordIsFetched : Prop :=
  ∀ (s t : State) (v a : Reg), s.halted = false → exec (.store v a) s = .next t →
    t.pc = s.reg a → t.Fetches (s.reg v)

/-! ### Runs -/

/-- A run ends successfully exactly when some step of it executes HLT: then `halted` is set and `pc` is
just past the HLT word (40_step_cycle section 4). `run k s = (unfinished, u)` says that the run has come
to `u` after `k` steps and is not halted. That an error ends a run is the spec's decision D28 (log 28). -/
def Obligations.SuccessfulRunsEndByHlt : Prop :=
  ∀ (n : Nat) (s : State),
    (endsHalted n s = true ↔ ∃ k u w, k < n ∧ run k s = (.unfinished, u) ∧ u.Fetches w ∧
      opcodeOf w = 0xFF#8) ∧
    (∀ k u w, k < n → run k s = (.unfinished, u) → u.Fetches w → opcodeOf w = 0xFF#8 →
      (run n s).1 = .halted ∧ (run n s).2.halted = true ∧ (run n s).2.pc = u.pc + 1#32)

/-! ### Invariants -/

/-- Every step keeps the invariant: memory canonical and inside its bounds, `0 <= sp <= MEM_SIZE`, the
inert flags 0, never ZERO and SIGN together; also in the state an error leaves (10_state sections 4, 5
and 7). -/
def Obligations.StepKeepsTheInvariant : Prop :=
  ∀ s : State, s.Inv = true →
    (∀ t, step s = .next t → t.Inv = true) ∧ (∀ f, step s = .fault f → f.left.Inv = true)

/-- The invariant holds right after construction with any MEM_SIZE, and so after reset (10_state
section 8). The reset values of Z, S and memory are the spec's decisions D2 and D3 (logs 3 and 4). -/
def Obligations.ResetMeetsTheInvariant : Prop :=
  (∀ n : Word, (State.construct n).Inv = true) ∧ State.reset.Inv = true

/-- Every state the host can bring an engine to meets the invariant: construction, steps, steps onward
after an error, loads and resets, in any order (10_state sections 4 and 5, 70_reset_and_hazards section
2). That ZERO, SIGN and memory are 0 after construction are the spec's decisions D2 and D3 (DESIGN
CHOICE, logs 3 and 4); that the host may step on after an error is D18 (log 6). -/
def Obligations.ReachableStatesMeetTheInvariant : Prop :=
  ∀ s : State, Reachable s → s.Inv = true

/-- No step changes MEM_SIZE, whatever its outcome (00_scope section 3, 10_state section 8: fixed for
the life of an instance; that it is a field of the state is the model's DESIGN CHOICE, log 1). -/
def Obligations.MemorySizeIsFixed : Prop :=
  ∀ s : State, (∀ t, step s = .next t → t.memSize = s.memSize) ∧
    (∀ f, step s = .fault f → f.left.memSize = s.memSize)

/-- `pc` arithmetic never wraps: an instruction that reaches its handler lies wholly inside memory, so
its next sequential address is at most MEM_SIZE (10_state section 3). -/
def Obligations.FetchNeverWraps : Prop :=
  ∀ (s t : State) (i : Instr), s.fetch = .run i t →
    t.pc.toNat = s.pc.toNat + i.words ∧ t.pc.toNat ≤ s.memSize.toNat

/-- The state after construction with MEM_SIZE = n: `sp = n`, not halted, CARRY, INTERRUPT, OVERFLOW and
PARITY 0 (10_state section 8); and, the spec's decisions D2 and D3 (DESIGN CHOICE, logs 3 and 4), ZERO,
SIGN, `pc`, every general register and every word of memory 0. -/
def Obligations.StateAfterReset : Prop :=
  ∀ n : Word,
    (State.construct n).sp = n ∧ (State.construct n).memSize = n ∧
    (State.construct n).halted = false ∧ (State.construct n).flags.inertClear = true ∧
    (State.construct n).flags.zero = false ∧ (State.construct n).flags.sign = false ∧
    (State.construct n).pc = 0#32 ∧ (∀ r, (State.construct n).reg r = 0#32) ∧
    (∀ a, a < n → (State.construct n).memRead a = .ok 0#32)

/-! ### The host's operations (70_reset_and_hazards) -/

/-- 70_reset_and_hazards R225: a load that fits writes the words from `base` up, word i at `base + i`,
sets `pc` and leaves all other state untouched. -/
def Obligations.LoadProgramWritesTheWords : Prop :=
  ∀ (s : State) (words : List Word) (base : Word),
    base.toNat + words.length ≤ s.memSize.toNat →
    ∃ t, s.loadProgram words base = .next t ∧ t.pc = base ∧
      (∀ k (h : k < words.length), t.mem.read (base.toNat + k) = words[k]) ∧
      (∀ a, (a < base.toNat ∨ base.toNat + words.length ≤ a) →
        t.mem.read a = s.mem.read a) ∧
      SameRegs s t ∧ t.sp = s.sp ∧ t.flags = s.flags ∧ t.halted = s.halted ∧
      t.memSize = s.memSize

/-- A load that does not fit is refused (70_reset_and_hazards section 2, the spec's decision D23,
log 24). -/
def Obligations.LoadThatDoesNotFitIsRefused : Prop :=
  ∀ (s : State) (words : List Word) (base : Word),
    s.memSize.toNat < base.toNat + words.length →
    s.loadProgram words base = .refused (.loadDoesNotFit base words.length)

/-- The flags bitmask of the snapshot: CARRY, ZERO, INTERRUPT, SIGN, OVERFLOW, PARITY in bits 0 to 5,
bits 7:6 zero; and the name list: it holds the name of a flag exactly when the flag is set, each name
once and in the order of the bits (10_state section 5). The layout and the order are the spec's decision
D4 (log 25). -/
def Obligations.PackedFlagsLayout : Prop :=
  ∀ s : State,
    (s.snapshot.flags.toNat = s.flags.carry.toNat + 2 * s.flags.zero.toNat +
      4 * s.flags.interrupt.toNat + 8 * s.flags.sign.toNat + 16 * s.flags.overflow.toNat +
      32 * s.flags.parity.toNat) ∧
    (∀ n : FlagName, n ∈ s.snapshot.flagNames ↔ match n with
      | .carry => s.flags.carry = true
      | .zero => s.flags.zero = true
      | .interrupt => s.flags.interrupt = true
      | .sign => s.flags.sign = true
      | .overflow => s.flags.overflow = true
      | .parity => s.flags.parity = true) ∧
    s.snapshot.flagNames.Sublist [.carry, .zero, .interrupt, .sign, .overflow, .parity]

/-- A snapshot of a range inside memory gives its words in order, and one past the end is refused
(70_reset_and_hazards section 2, 93_implementation_defined U14, log 24). -/
def Obligations.SnapshotRangeReadsMemory : Prop :=
  ∀ (s : State) (base : Word) (n : Nat),
    (base.toNat + n ≤ s.memSize.toNat →
      s.snapshotRange base n = .ok ((List.range n).map fun k => s.mem.read (base.toNat + k))) ∧
    (s.memSize.toNat < base.toNat + n →
      s.snapshotRange base n = .error (.rangeOutsideMemory base n))
end

