-- ==== Sys2Proof/Laws/Decode.lean ====
section
/-! SUPPORT. The fields of the words the encoder writes: one lemma per format and field
(30_encoding R71, R72). -/

namespace Sys2Proof

theorem opcodeOf_wordN (op : Byte) :
    opcodeOf (wordN op) = op := by
  apply BitVec.eq_of_getLsbD_eq
  intro k hk
  simp only [opcodeOf, wordN, BitVec.getLsbD_extractLsb', BitVec.getLsbD_append]
  interval_cases k <;> simp

theorem opcodeOf_wordR (op : Byte) (ra : Reg) :
    opcodeOf (wordR op ra) = op := by
  apply BitVec.eq_of_getLsbD_eq
  intro k hk
  simp only [opcodeOf, wordR, BitVec.getLsbD_extractLsb', BitVec.getLsbD_append]
  interval_cases k <;> simp

theorem fieldRa_wordR (op : Byte) (ra : Reg) :
    fieldRa (wordR op ra) = ra := by
  apply BitVec.eq_of_getLsbD_eq
  intro k hk
  simp only [fieldRa, wordR, BitVec.getLsbD_extractLsb', BitVec.getLsbD_append]
  interval_cases k <;> simp

theorem opcodeOf_wordRR (op : Byte) (ra rb : Reg) :
    opcodeOf (wordRR op ra rb) = op := by
  apply BitVec.eq_of_getLsbD_eq
  intro k hk
  simp only [opcodeOf, wordRR, BitVec.getLsbD_extractLsb', BitVec.getLsbD_append]
  interval_cases k <;> simp

theorem fieldRa_wordRR (op : Byte) (ra rb : Reg) :
    fieldRa (wordRR op ra rb) = ra := by
  apply BitVec.eq_of_getLsbD_eq
  intro k hk
  simp only [fieldRa, wordRR, BitVec.getLsbD_extractLsb', BitVec.getLsbD_append]
  interval_cases k <;> simp

theorem fieldRb_wordRR (op : Byte) (ra rb : Reg) :
    fieldRb (wordRR op ra rb) = rb := by
  apply BitVec.eq_of_getLsbD_eq
  intro k hk
  simp only [fieldRb, wordRR, BitVec.getLsbD_extractLsb', BitVec.getLsbD_append]
  interval_cases k <;> simp

theorem opcodeOf_wordRI (op : Byte) (ra : Reg) (imm16 : Half) :
    opcodeOf (wordRI op ra imm16) = op := by
  apply BitVec.eq_of_getLsbD_eq
  intro k hk
  simp only [opcodeOf, wordRI, BitVec.getLsbD_extractLsb', BitVec.getLsbD_append]
  interval_cases k <;> simp

theorem fieldRa_wordRI (op : Byte) (ra : Reg) (imm16 : Half) :
    fieldRa (wordRI op ra imm16) = ra := by
  apply BitVec.eq_of_getLsbD_eq
  intro k hk
  simp only [fieldRa, wordRI, BitVec.getLsbD_extractLsb', BitVec.getLsbD_append]
  interval_cases k <;> simp

theorem fieldImm16_wordRI (op : Byte) (ra : Reg) (imm16 : Half) :
    fieldImm16 (wordRI op ra imm16) = imm16 := by
  apply BitVec.eq_of_getLsbD_eq
  intro k hk
  simp only [fieldImm16, wordRI, BitVec.getLsbD_extractLsb', BitVec.getLsbD_append]
  interval_cases k <;> simp

theorem opcodeOf_wordJ (op : Byte) (target : Half) :
    opcodeOf (wordJ op target) = op := by
  apply BitVec.eq_of_getLsbD_eq
  intro k hk
  simp only [opcodeOf, wordJ, BitVec.getLsbD_extractLsb', BitVec.getLsbD_append]
  interval_cases k <;> simp

theorem fieldImm16_wordJ (op : Byte) (target : Half) :
    fieldImm16 (wordJ op target) = target := by
  apply BitVec.eq_of_getLsbD_eq
  intro k hk
  simp only [fieldImm16, wordJ, BitVec.getLsbD_extractLsb', BitVec.getLsbD_append]
  interval_cases k <;> simp

theorem opcodeOf_wordRL (op : Byte) (ra : Reg) :
    opcodeOf (wordRL op ra) = op := by
  apply BitVec.eq_of_getLsbD_eq
  intro k hk
  simp only [opcodeOf, wordRL, BitVec.getLsbD_extractLsb', BitVec.getLsbD_append]
  interval_cases k <;> simp

theorem fieldRa_wordRL (op : Byte) (ra : Reg) :
    fieldRa (wordRL op ra) = ra := by
  apply BitVec.eq_of_getLsbD_eq
  intro k hk
  simp only [fieldRa, wordRL, BitVec.getLsbD_extractLsb', BitVec.getLsbD_append]
  interval_cases k <;> simp

theorem opcodeOf_wordLL (op : Byte) :
    opcodeOf (wordLL op) = op := by
  apply BitVec.eq_of_getLsbD_eq
  intro k hk
  simp only [opcodeOf, wordLL, BitVec.getLsbD_extractLsb', BitVec.getLsbD_append]
  interval_cases k <;> simp

theorem sentinelRL_wordRL (op : Byte) (ra : Reg) : sentinelRL (wordRL op ra) = true := by
  have h : (wordRL op ra).extractLsb' 0 8 = 0xFF#8 := by
    apply BitVec.eq_of_getLsbD_eq
    intro k hk
    simp only [wordRL, BitVec.getLsbD_extractLsb', BitVec.getLsbD_append]
    interval_cases k <;> simp
  simp [sentinelRL, h]

theorem sentinelLL_wordLL (op : Byte) : sentinelLL (wordLL op) = true := by
  have h : (wordLL op).extractLsb' 0 24 = 0xFFFFFF#24 := by
    apply BitVec.eq_of_getLsbD_eq
    intro k hk
    simp only [wordLL, BitVec.getLsbD_extractLsb', BitVec.getLsbD_append]
    interval_cases k <;> simp
  simp [sentinelLL, h]

/-! ### A word with its ignored bits cleared is rebuilt from its fields (30_encoding R71, R75) -/

theorem canonicalise_n (w : Word) (h : formatOf (opcodeOf w) = some .n) :
    canonicalise w = wordN (opcodeOf w) := by
  unfold canonicalise ignoredBits
  rw [h]
  apply BitVec.eq_of_getLsbD_eq
  intro k hk
  simp only [opcodeOf, wordN, BitVec.getLsbD_and, BitVec.getLsbD_not,
    BitVec.getLsbD_append, BitVec.getLsbD_extractLsb']
  interval_cases k <;> simp

theorem canonicalise_r (w : Word) (h : formatOf (opcodeOf w) = some .r) :
    canonicalise w = wordR (opcodeOf w) (fieldRa w) := by
  unfold canonicalise ignoredBits
  rw [h]
  apply BitVec.eq_of_getLsbD_eq
  intro k hk
  simp only [opcodeOf, fieldRa, wordR, BitVec.getLsbD_and, BitVec.getLsbD_not,
    BitVec.getLsbD_append, BitVec.getLsbD_extractLsb']
  interval_cases k <;> simp

theorem canonicalise_rr (w : Word) (h : formatOf (opcodeOf w) = some .rr) :
    canonicalise w = wordRR (opcodeOf w) (fieldRa w) (fieldRb w) := by
  unfold canonicalise ignoredBits
  rw [h]
  apply BitVec.eq_of_getLsbD_eq
  intro k hk
  simp only [opcodeOf, fieldRa, fieldRb, wordRR, BitVec.getLsbD_and, BitVec.getLsbD_not,
    BitVec.getLsbD_append, BitVec.getLsbD_extractLsb']
  interval_cases k <;> simp

theorem canonicalise_ri (w : Word) (h : formatOf (opcodeOf w) = some .ri) :
    canonicalise w = wordRI (opcodeOf w) (fieldRa w) (fieldImm16 w) := by
  unfold canonicalise ignoredBits
  rw [h]
  apply BitVec.eq_of_getLsbD_eq
  intro k hk
  simp only [opcodeOf, fieldRa, fieldImm16, wordRI, BitVec.getLsbD_and, BitVec.getLsbD_not,
    BitVec.getLsbD_append, BitVec.getLsbD_extractLsb']
  interval_cases k <;> simp

theorem canonicalise_j (w : Word) (h : formatOf (opcodeOf w) = some .j) :
    canonicalise w = wordJ (opcodeOf w) (fieldImm16 w) := by
  unfold canonicalise ignoredBits
  rw [h]
  apply BitVec.eq_of_getLsbD_eq
  intro k hk
  simp only [opcodeOf, fieldImm16, wordJ, BitVec.getLsbD_and, BitVec.getLsbD_not,
    BitVec.getLsbD_append, BitVec.getLsbD_extractLsb']
  interval_cases k <;> simp

theorem canonicalise_rl (w : Word) (h : formatOf (opcodeOf w) = some .rl)
    (hs : sentinelRL w = true) : canonicalise w = wordRL (opcodeOf w) (fieldRa w) := by
  have hs : w.extractLsb' 0 8 = 0xFF#8 := by simpa [sentinelRL] using hs
  unfold canonicalise ignoredBits
  rw [h]
  unfold wordRL
  rw [← hs]
  apply BitVec.eq_of_getLsbD_eq
  intro k hk
  simp only [opcodeOf, fieldRa, BitVec.getLsbD_and, BitVec.getLsbD_not, BitVec.getLsbD_append,
    BitVec.getLsbD_extractLsb']
  interval_cases k <;> simp

theorem canonicalise_ll (w : Word) (h : formatOf (opcodeOf w) = some .ll)
    (hs : sentinelLL w = true) : canonicalise w = wordLL (opcodeOf w) := by
  have hs : w.extractLsb' 0 24 = 0xFFFFFF#24 := by simpa [sentinelLL] using hs
  unfold canonicalise ignoredBits
  rw [h]
  unfold wordLL
  rw [← hs]
  apply BitVec.eq_of_getLsbD_eq
  intro k hk
  simp only [opcodeOf, BitVec.getLsbD_and, BitVec.getLsbD_not, BitVec.getLsbD_append,
    BitVec.getLsbD_extractLsb']
  interval_cases k <;> simp

/-- An opcode absent from the table decodes as unknown (30_encoding R82). -/
theorem decodeHeader_of_formatOf_none (w : Word) (h : formatOf (opcodeOf w) = none) :
    decodeHeader w = .unknown (opcodeOf w) := by
  unfold decodeHeader
  split <;> first | rfl | (rename_i e; rw [e] at h; exact absurd h (by decide))

/-- Unknown is exactly: the opcode is absent from the table (30_encoding R82). -/
theorem decodeHeader_eq_unknown (w : Word) (op : Byte) :
    decodeHeader w = .unknown op ↔ formatOf (opcodeOf w) = none ∧ op = opcodeOf w := by
  constructor
  · intro h
    have hn : formatOf (opcodeOf w) = none := by
      by_contra hne
      have hm : ∀ o : Byte, formatOf o ≠ none → o ∈ opcodeTable.map (·.1) := by decide +kernel
      have hmem := hm _ hne
      simp only [opcodeTable, List.map_cons, List.map_nil, List.cons_append, List.nil_append,
        List.mem_cons, List.not_mem_nil, or_false] at hmem
      unfold decodeHeader at h
      split at h
      all_goals first
        | (cases h; done)
        | (split at h <;> cases h)
        | simp_all
    rw [decodeHeader_of_formatOf_none w hn] at h
    exact ⟨hn, by cases h; rfl⟩
  · rintro ⟨h, rfl⟩
    exact decodeHeader_of_formatOf_none w h

/-- A header that completes an instruction does so in one word. -/
theorem words_of_complete (w : Word) (i : Instr) (h : decodeHeader w = .complete i) :
    i.words = 1 := by
  unfold decodeHeader at h
  split at h <;> first | cases h; rfl | (split at h <;> cases h) | cases h

end Sys2Proof
end

