-- ==== Sys2Proof/Laws/Memory.lean ====
section
/-! SUPPORT. The laws of memory: what a read after a write answers (for every list, canonical or not),
and that every operation keeps the canonical form and the bound on addresses. -/

namespace Sys2Proof.Machine

@[simp] theorem Memory.read_nil (a : Nat) : Memory.read [] a = 0#32 := rfl

theorem Memory.read_erase (m : Memory) (a b : Nat) :
    (m.erase a).read b = if b = a then 0#32 else m.read b := by
  induction m with
  | nil => simp [Memory.erase]
  | cons e m ih =>
    obtain ⟨c, v⟩ := e
    simp only [Memory.erase] at ih ⊢
    by_cases hc : c = a
    · by_cases hb : b = a
      · simp_all
      · have hab : ¬ a = b := fun h => hb h.symm
        simp_all [Memory.read]
    · by_cases hb : b = a
      · have hcb : ¬ c = b := fun h => hc (h.trans hb)
        simp_all [Memory.read]
      · simp_all [Memory.read]

theorem Memory.read_insert (m : Memory) (a b : Nat) (v : Word) (ha : ∀ e ∈ m, e.1 ≠ a) :
    (m.insert a v).read b = if b = a then v else m.read b := by
  induction m with
  | nil => simp [Memory.insert, Memory.read, eq_comm]
  | cons e m ih =>
    obtain ⟨c, u⟩ := e
    have hc : c ≠ a := ha (c, u) (by simp)
    have ih := ih fun e he => ha e (by simp [he])
    unfold Memory.insert
    split
    · by_cases hb : b = a
      · simp [Memory.read, hb]
      · have hab : ¬ a = b := fun h => hb h.symm
        simp [Memory.read, hb, hab]
    · by_cases hb : c = b
      · subst hb; simp [Memory.read, hc]
      · simp [Memory.read, hb, ih]

theorem Memory.not_mem_erase (m : Memory) (a : Nat) : ∀ e ∈ m.erase a, e.1 ≠ a := by
  simp [Memory.erase]

/-- Read after write (20_memory R52, R53): the word written there, every other word as before. -/
theorem Memory.read_write (m : Memory) (a b : Nat) (v : Word) :
    (m.write a v).read b = if b = a then v else m.read b := by
  unfold Memory.write
  split
  · next h => rw [Memory.read_erase, h]
  · rw [Memory.read_insert _ _ _ _ (m.not_mem_erase a), Memory.read_erase]
    split <;> rfl

@[simp] theorem Memory.read_write_self (m : Memory) (a : Nat) (v : Word) :
    (m.write a v).read a = v := by
  simp [Memory.read_write]

theorem Memory.read_write_ne (m : Memory) {a b : Nat} (v : Word) (h : b ≠ a) :
    (m.write a v).read b = m.read b := by
  simp [Memory.read_write, h]

/-! ### The canonical form -/

theorem Memory.wf_iff (m : Memory) :
    m.wf = true ↔ (m.Pairwise fun e f => e.1 < f.1) ∧ ∀ e ∈ m, e.2 ≠ 0#32 := by
  simp [Memory.wf]

theorem Memory.mem_insert (m : Memory) (a : Nat) (v : Word) (e : Nat × Word) :
    e ∈ m.insert a v ↔ e = (a, v) ∨ e ∈ m := by
  induction m with
  | nil => simp [Memory.insert]
  | cons f m ih =>
    obtain ⟨b, u⟩ := f
    unfold Memory.insert
    split
    · simp
    · simp [ih]; tauto

theorem Memory.erase_keeps_wf (m : Memory) (a : Nat) (h : m.wf = true) : (m.erase a).wf = true := by
  rw [Memory.wf_iff] at h ⊢
  exact ⟨h.1.filter _, fun e he => h.2 e (List.mem_of_mem_filter he)⟩

theorem Memory.insert_keeps_wf (m : Memory) (a : Nat) (v : Word) (h : m.wf = true)
    (ha : ∀ e ∈ m, e.1 ≠ a) (hv : v ≠ 0#32) : (m.insert a v).wf = true := by
  rw [Memory.wf_iff] at h ⊢
  refine ⟨?_, ?_⟩
  · obtain ⟨hs, -⟩ := h
    induction m with
    | nil => simp [Memory.insert]
    | cons e m ih =>
      obtain ⟨b, u⟩ := e
      rw [List.pairwise_cons] at hs
      have hb : b ≠ a := ha (b, u) (by simp)
      unfold Memory.insert
      split
      · next hab =>
        refine List.pairwise_cons.mpr ⟨?_, List.pairwise_cons.mpr hs⟩
        intro e he
        rcases List.mem_cons.mp he with rfl | he
        · exact hab
        · exact Nat.lt_trans hab (hs.1 e he)
      · next hab =>
        refine List.pairwise_cons.mpr ⟨?_, ih (fun e he => ha e (by simp [he])) hs.2⟩
        intro e he
        rcases (Memory.mem_insert m a v e).mp he with rfl | he
        · show b < a
          omega
        · exact hs.1 e he
  · intro e he
    rcases (Memory.mem_insert m a v e).mp he with rfl | he
    · exact hv
    · exact h.2 e he

/-- A write keeps the canonical form. -/
theorem Memory.write_keeps_wf (m : Memory) (a : Nat) (v : Word) (h : m.wf = true) :
    (m.write a v).wf = true := by
  unfold Memory.write
  split
  · exact m.erase_keeps_wf a h
  · next hv => exact Memory.insert_keeps_wf _ a v (m.erase_keeps_wf a h) (m.not_mem_erase a) hv

theorem Memory.inside_iff (m : Memory) (n : Nat) : m.inside n = true ↔ ∀ e ∈ m, e.1 < n := by
  simp [Memory.inside]

/-- A write at an address inside memory keeps every listed address inside. -/
theorem Memory.write_keeps_inside (m : Memory) (a n : Nat) (v : Word) (h : m.inside n = true)
    (ha : a < n) : (m.write a v).inside n = true := by
  rw [Memory.inside_iff] at h ⊢
  have he : ∀ e ∈ m.erase a, e.1 < n := fun e he => h e (List.mem_of_mem_filter he)
  unfold Memory.write
  split
  · exact he
  · intro e hi
    rcases (Memory.mem_insert _ a v e).mp hi with rfl | hi
    · exact ha
    · exact he e hi

/-- Two canonical memories that read the same everywhere are the same list. -/
theorem Memory.ext_of_wf (m n : Memory) (hm : m.wf = true) (hn : n.wf = true)
    (h : ∀ a, m.read a = n.read a) : m = n := by
  have low : ∀ (l : Memory) (a : Nat), (∀ e ∈ l, a < e.1) → l.read a = 0#32 := by
    intro l
    induction l with
    | nil => simp
    | cons e l ih =>
      intro a ha
      obtain ⟨b, u⟩ := e
      have hb : a < b := ha (b, u) (by simp)
      have hne : b ≠ a := by omega
      simpa [Memory.read, hne] using ih a fun e he => ha e (by simp [he])
  rw [Memory.wf_iff] at hm hn
  induction m generalizing n with
  | nil =>
    cases n with
    | nil => rfl
    | cons f n =>
      exact absurd (by simpa [Memory.read] using (h f.1).symm) (hn.2 f (by simp))
  | cons e m ih =>
    cases n with
    | nil => exact absurd (by simpa [Memory.read] using h e.1) (hm.2 e (by simp))
    | cons f n =>
      obtain ⟨a, u⟩ := e
      obtain ⟨b, v⟩ := f
      obtain ⟨⟨hma, hms⟩, hmz⟩ := And.imp_left List.pairwise_cons.mp hm
      obtain ⟨⟨hnb, hns⟩, hnz⟩ := And.imp_left List.pairwise_cons.mp hn
      have hu : u ≠ 0#32 := hmz (a, u) (by simp)
      have hv : v ≠ 0#32 := hnz (b, v) (by simp)
      have hab : a = b := by
        rcases Nat.lt_trichotomy a b with hlt | heq | hgt
        · have hz := low ((b, v) :: n) a (by
            intro e he
            rcases List.mem_cons.mp he with rfl | he
            · exact hlt
            · exact Nat.lt_trans hlt (hnb e he))
          exact absurd ((by simp [Memory.read] : u = Memory.read ((a, u) :: m) a).trans ((h a).trans hz)) hu
        · exact heq
        · have hz := low ((a, u) :: m) b (by
            intro e he
            rcases List.mem_cons.mp he with rfl | he
            · exact hgt
            · exact Nat.lt_trans hgt (hma e he))
          exact absurd ((by simp [Memory.read] : v = Memory.read ((b, v) :: n) b).trans ((h b).symm.trans hz)) hv
      subst hab
      have huv : u = v := by simpa [Memory.read] using h a
      subst huv
      refine congrArg _ (ih n ⟨hms, fun e he => hmz e (by simp [he])⟩
        ⟨hns, fun e he => hnz e (by simp [he])⟩ ?_)
      intro c
      by_cases hc : a = c
      · subst hc
        rw [low m a (fun e he => hma e he), low n a (fun e he => hnb e he)]
      · simpa [Memory.read, hc] using h c

end Sys2Proof.Machine
end

