-- ==== Sys2Proof/Laws/State.lean ====
section
/-! SUPPORT. One lemma per field of State per update, so that no later proof unfolds a record update;
the register-file laws; the flags after an update. -/

namespace Sys2Proof.Machine

/-! ### `State.setReg` -/

@[simp] theorem State.setReg_pc (s : State) (i : Reg) (v : Word) :
    (s.setReg i v).pc = s.pc := rfl

@[simp] theorem State.setReg_sp (s : State) (i : Reg) (v : Word) :
    (s.setReg i v).sp = s.sp := rfl

@[simp] theorem State.setReg_flags (s : State) (i : Reg) (v : Word) :
    (s.setReg i v).flags = s.flags := rfl

@[simp] theorem State.setReg_halted (s : State) (i : Reg) (v : Word) :
    (s.setReg i v).halted = s.halted := rfl

@[simp] theorem State.setReg_mem (s : State) (i : Reg) (v : Word) :
    (s.setReg i v).mem = s.mem := rfl

@[simp] theorem State.setReg_memSize (s : State) (i : Reg) (v : Word) :
    (s.setReg i v).memSize = s.memSize := rfl

/-! ### `State.setPc` -/

@[simp] theorem State.setPc_regs (s : State) (t : Word) :
    (s.setPc t).regs = s.regs := rfl

@[simp] theorem State.setPc_pc (s : State) (t : Word) :
    (s.setPc t).pc = t := rfl

@[simp] theorem State.setPc_sp (s : State) (t : Word) :
    (s.setPc t).sp = s.sp := rfl

@[simp] theorem State.setPc_flags (s : State) (t : Word) :
    (s.setPc t).flags = s.flags := rfl

@[simp] theorem State.setPc_halted (s : State) (t : Word) :
    (s.setPc t).halted = s.halted := rfl

@[simp] theorem State.setPc_mem (s : State) (t : Word) :
    (s.setPc t).mem = s.mem := rfl

@[simp] theorem State.setPc_memSize (s : State) (t : Word) :
    (s.setPc t).memSize = s.memSize := rfl

@[simp] theorem State.setPc_reg (s : State) (t : Word) (r : Reg) :
    (s.setPc t).reg r = s.reg r := rfl

/-! ### `State.setSp` -/

@[simp] theorem State.setSp_regs (s : State) (a : Word) :
    (s.setSp a).regs = s.regs := rfl

@[simp] theorem State.setSp_pc (s : State) (a : Word) :
    (s.setSp a).pc = s.pc := rfl

@[simp] theorem State.setSp_sp (s : State) (a : Word) :
    (s.setSp a).sp = a := rfl

@[simp] theorem State.setSp_flags (s : State) (a : Word) :
    (s.setSp a).flags = s.flags := rfl

@[simp] theorem State.setSp_halted (s : State) (a : Word) :
    (s.setSp a).halted = s.halted := rfl

@[simp] theorem State.setSp_mem (s : State) (a : Word) :
    (s.setSp a).mem = s.mem := rfl

@[simp] theorem State.setSp_memSize (s : State) (a : Word) :
    (s.setSp a).memSize = s.memSize := rfl

@[simp] theorem State.setSp_reg (s : State) (a : Word) (r : Reg) :
    (s.setSp a).reg r = s.reg r := rfl

/-! ### `State.halt` -/

@[simp] theorem State.halt_regs (s : State) :
    (s.halt).regs = s.regs := rfl

@[simp] theorem State.halt_pc (s : State) :
    (s.halt).pc = s.pc := rfl

@[simp] theorem State.halt_sp (s : State) :
    (s.halt).sp = s.sp := rfl

@[simp] theorem State.halt_flags (s : State) :
    (s.halt).flags = s.flags := rfl

@[simp] theorem State.halt_halted (s : State) :
    (s.halt).halted = true := rfl

@[simp] theorem State.halt_mem (s : State) :
    (s.halt).mem = s.mem := rfl

@[simp] theorem State.halt_memSize (s : State) :
    (s.halt).memSize = s.memSize := rfl

@[simp] theorem State.halt_reg (s : State) (r : Reg) :
    (s.halt).reg r = s.reg r := rfl

/-! ### `State.putWord` -/

@[simp] theorem State.putWord_regs (s : State) (a v : Word) :
    (s.putWord a v).regs = s.regs := rfl

@[simp] theorem State.putWord_pc (s : State) (a v : Word) :
    (s.putWord a v).pc = s.pc := rfl

@[simp] theorem State.putWord_sp (s : State) (a v : Word) :
    (s.putWord a v).sp = s.sp := rfl

@[simp] theorem State.putWord_flags (s : State) (a v : Word) :
    (s.putWord a v).flags = s.flags := rfl

@[simp] theorem State.putWord_halted (s : State) (a v : Word) :
    (s.putWord a v).halted = s.halted := rfl

@[simp] theorem State.putWord_mem (s : State) (a v : Word) :
    (s.putWord a v).mem = s.mem.write a.toNat v := rfl

@[simp] theorem State.putWord_memSize (s : State) (a v : Word) :
    (s.putWord a v).memSize = s.memSize := rfl

@[simp] theorem State.putWord_reg (s : State) (a v : Word) (r : Reg) :
    (s.putWord a v).reg r = s.reg r := rfl

/-! ### `State.setZS` -/

@[simp] theorem State.setZS_regs (s : State) (res : Word) :
    (s.setZS res).regs = s.regs := rfl

@[simp] theorem State.setZS_pc (s : State) (res : Word) :
    (s.setZS res).pc = s.pc := rfl

@[simp] theorem State.setZS_sp (s : State) (res : Word) :
    (s.setZS res).sp = s.sp := rfl

@[simp] theorem State.setZS_flags (s : State) (res : Word) :
    (s.setZS res).flags = s.flags.setZS res := rfl

@[simp] theorem State.setZS_halted (s : State) (res : Word) :
    (s.setZS res).halted = s.halted := rfl

@[simp] theorem State.setZS_mem (s : State) (res : Word) :
    (s.setZS res).mem = s.mem := rfl

@[simp] theorem State.setZS_memSize (s : State) (res : Word) :
    (s.setZS res).memSize = s.memSize := rfl

@[simp] theorem State.setZS_reg (s : State) (res : Word) (r : Reg) :
    (s.setZS res).reg r = s.reg r := rfl

/-! ### The register file -/

@[simp] theorem State.setReg_reg_self (s : State) (i : Reg) (v : Word) :
    (s.setReg i v).reg i = v := by
  simp [State.reg, State.setReg]

theorem State.setReg_reg_ne (s : State) {i r : Reg} (v : Word) (h : r ≠ i) :
    (s.setReg i v).reg r = s.reg r := by
  have hne : i.toNat ≠ r.toNat := fun e => h (BitVec.eq_of_toNat_eq e.symm)
  simp [State.reg, State.setReg, hne]

/-- A register read after a register write, both cases. -/
theorem State.setReg_reg (s : State) (i r : Reg) (v : Word) :
    (s.setReg i v).reg r = if r = i then v else s.reg r := by
  split
  · next h => subst h; simp
  · next h => exact s.setReg_reg_ne v h

/-! ### Flags -/

@[simp] theorem Flags.setZS_zero (f : Flags) (res : Word) : (f.setZS res).zero = (res == 0#32) := rfl

@[simp] theorem Flags.setZS_sign (f : Flags) (res : Word) : (f.setZS res).sign = res.msb := rfl

@[simp] theorem Flags.setZS_carry (f : Flags) (res : Word) : (f.setZS res).carry = f.carry := rfl

@[simp] theorem Flags.setZS_interrupt (f : Flags) (res : Word) :
    (f.setZS res).interrupt = f.interrupt := rfl

@[simp] theorem Flags.setZS_overflow (f : Flags) (res : Word) :
    (f.setZS res).overflow = f.overflow := rfl

@[simp] theorem Flags.setZS_parity (f : Flags) (res : Word) : (f.setZS res).parity = f.parity := rfl

/-- A result never sets both flags (10_state R36). -/
theorem Flags.setZS_not_both (f : Flags) (res : Word) :
    ((f.setZS res).zero && (f.setZS res).sign) = false := by
  simp only [Flags.setZS_zero, Flags.setZS_sign]
  by_cases h : res = 0#32
  · subst h; decide
  · simp [h]

/-! ### ALU writes and compares -/

@[simp] theorem State.aluWrite_pc (s : State) (op : AluOp) (d : Reg) (b : Word) :
    (s.aluWrite op d b).pc = s.pc := rfl

@[simp] theorem State.aluWrite_sp (s : State) (op : AluOp) (d : Reg) (b : Word) :
    (s.aluWrite op d b).sp = s.sp := rfl

@[simp] theorem State.aluWrite_flags (s : State) (op : AluOp) (d : Reg) (b : Word) :
    (s.aluWrite op d b).flags = s.flags.setZS (alu op (s.reg d) b) := rfl

@[simp] theorem State.aluWrite_halted (s : State) (op : AluOp) (d : Reg) (b : Word) :
    (s.aluWrite op d b).halted = s.halted := rfl

@[simp] theorem State.aluWrite_mem (s : State) (op : AluOp) (d : Reg) (b : Word) :
    (s.aluWrite op d b).mem = s.mem := rfl

@[simp] theorem State.aluWrite_memSize (s : State) (op : AluOp) (d : Reg) (b : Word) :
    (s.aluWrite op d b).memSize = s.memSize := rfl

/-- The registers after an ALU write: the destination holds the result, the others are unchanged. -/
theorem State.aluWrite_reg (s : State) (op : AluOp) (d r : Reg) (b : Word) :
    (s.aluWrite op d b).reg r = if r = d then alu op (s.reg d) b else s.reg r :=
  s.setReg_reg d r _

/-- A compare is a flag update with the difference. -/
theorem State.compare_eq (s : State) (a b : Word) : s.compare a b = s.setZS (a - b) := rfl

end Sys2Proof.Machine
end

