-- ==== Sys2Proof/Laws/Ops.lean ====
section
/-! SUPPORT. One lemma for each shared operation that says everything it can answer; the provers cite
these and do not unfold the operations. -/

namespace Sys2Proof.Machine

/-! ### The memory primitives (20_memory R52, R53) -/

theorem State.memRead_eq_ok (s : State) (a w : Word) :
    s.memRead a = .ok w ↔ a < s.memSize ∧ w = s.mem.read a.toNat := by
  unfold State.memRead
  split
  · next h => simpa [h] using eq_comm
  · next h => simp [h]

theorem State.memRead_eq_error (s : State) (a : Word) (f : Fault) :
    s.memRead a = .error f ↔ ¬ a < s.memSize ∧ f = .memoryAccessError a s := by
  unfold State.memRead
  split
  · next h => simp [h]
  · next h => simpa [h] using eq_comm

theorem State.memWrite_eq_ok (s t : State) (a v : Word) :
    s.memWrite a v = .ok t ↔ a < s.memSize ∧ t = s.putWord a v := by
  unfold State.memWrite
  split
  · next h => simpa [h] using eq_comm
  · next h => simp [h]

theorem State.memWrite_eq_error (s : State) (a v : Word) (f : Fault) :
    s.memWrite a v = .error f ↔ ¬ a < s.memSize ∧ f = .memoryAccessError a s := by
  unfold State.memWrite
  split
  · next h => simp [h]
  · next h => simpa [h] using eq_comm

/-- Memory read by `s` does not depend on `pc`. -/
theorem State.setPc_memRead_ok (s : State) (t a w : Word) :
    (s.setPc t).memRead a = .ok w ↔ s.memRead a = .ok w := by
  simp [State.memRead_eq_ok]

/-! ### The stack (44_stack_call) -/

theorem State.push_eq_ok (s t : State) (v : Word) :
    s.push v = .ok t ↔ s.sp ≠ 0#32 ∧ s.sp - 1#32 < s.memSize ∧
      t = (s.setSp (s.sp - 1#32)).putWord (s.sp - 1#32) v := by
  unfold State.push
  split
  · simp_all
  · simp [State.memWrite_eq_ok, *]

theorem State.push_eq_error (s : State) (v : Word) (f : Fault) :
    s.push v = .error f ↔ (s.sp = 0#32 ∧ f = .stackError .overflow s) ∨
      (s.sp ≠ 0#32 ∧ ¬ s.sp - 1#32 < s.memSize ∧
        f = .memoryAccessError (s.sp - 1#32) (s.setSp (s.sp - 1#32))) := by
  unfold State.push
  split
  · next h => simpa [h] using eq_comm
  · simp [State.memWrite_eq_error, *]

/-- With `sp <= MEM_SIZE` the slot under a non-zero `sp` is inside memory (10_state R30). -/
theorem State.pushSlot_lt (s : State) (h : s.sp ≠ 0#32) (hs : s.sp ≤ s.memSize) :
    s.sp - 1#32 < s.memSize := by
  have : s.sp.toNat ≠ 0 := fun e => h (BitVec.eq_of_toNat_eq (by simpa using e))
  bv_omega

theorem State.pop_eq_ok (s t : State) (v : Word) :
    s.pop = .ok (v, t) ↔ s.sp < s.memSize ∧ v = s.mem.read s.sp.toNat ∧
      t = s.setSp (s.sp + 1#32) := by
  unfold State.pop
  split
  · next h => simp [BitVec.not_lt.mpr h]
  · next h =>
    have h : s.sp < s.memSize := BitVec.not_le.mp h
    simp [State.memRead, h, Except.map, eq_comm]

theorem State.pop_eq_error (s : State) (f : Fault) :
    s.pop = .error f ↔ ¬ s.sp < s.memSize ∧ f = .stackError .underflow s := by
  unfold State.pop
  split
  · next h => simp [BitVec.not_lt.mpr h, eq_comm]
  · next h =>
    have h : s.sp < s.memSize := BitVec.not_le.mp h
    simp [State.memRead, h, Except.map]

/-! ### Outcomes -/

theorem finish_eq_next (r : Except Fault State) (t : State) : finish r = .next t ↔ r = .ok t := by
  cases r <;> simp [finish]

theorem finish_eq_fault (r : Except Fault State) (f : Fault) :
    finish r = .fault f ↔ r = .error f := by
  cases r <;> simp [finish]

theorem finish_ne_refused (r : Except Fault State) (e : Refusal) : finish r ≠ .refused e := by
  cases r <;> simp [finish]

theorem Except.map_eq_ok {ε α β : Type} (x : Except ε α) (g : α → β) (b : β) :
    x.map g = .ok b ↔ ∃ a, x = .ok a ∧ g a = b := by
  cases x <;> simp [Except.map]

theorem Except.map_eq_error {ε α β : Type} (x : Except ε α) (g : α → β) (e : ε) :
    x.map g = .error e ↔ x = .error e := by
  cases x <;> simp [Except.map]

/-! ### Fetch (40_step_cycle R101 to R104) -/

/-- What it takes to hand an instruction to its handler: the words at `pc` decode to it, and `pc` moves
past them. -/
theorem State.fetch_run (s t : State) (i : Instr) (h : s.fetch = .run i t) :
    s.halted = false ∧ s.pc < s.memSize ∧
      t = s.setPc (s.pc + BitVec.ofNat 32 i.words) ∧
      decode (s.wordsAt s.pc i.words) = .instr i [] := by
  unfold State.fetch at h
  split at h
  · cases h
  next hh =>
  have hh : s.halted = false := by simpa using hh
  cases hr : s.memRead s.pc with
  | error f => simp [hr] at h
  | ok w =>
    simp only [hr, State.fetchRest] at h
    have hlt := ((s.memRead_eq_ok _ _).mp hr).1
    cases hd : decodeHeader w with
    | complete j =>
      simp only [hd, Fetched.run.injEq] at h
      obtain ⟨rfl, rfl⟩ := h
      have h1 : j.words = 1 := by
        unfold decodeHeader at hd
        split at hd <;> first | cases hd; rfl | (split at hd <;> cases hd) | cases hd
      refine ⟨hh, hlt, by rw [h1], ?_⟩
      simp [h1, State.wordsAt, hr, decode, hd]
    | needsLiteral d =>
      simp only [hd, State.fetchLiteral] at h
      split at h
      · next l hl =>
        rw [State.setPc_memRead_ok] at hl
        simp only [Fetched.run.injEq] at h
        obtain ⟨rfl, rfl⟩ := h
        exact ⟨hh, hlt, rfl, by simp [Instr.words, State.wordsAt, hr, hl, decode, hd]⟩
      · cases h
    | needsTwoLiterals =>
      simp only [hd, State.fetchTwoLiterals] at h
      split at h
      · cases h
      next a ha =>
      split at h
      · cases h
      next v hv =>
      simp only [Fetched.run.injEq] at h
      obtain ⟨rfl, rfl⟩ := h
      have hv' : s.memRead (s.pc + 1#32 + 1#32) = .ok v := by
        rwa [BitVec.add_assoc]
      exact ⟨hh, hlt, rfl, by simp [Instr.words, State.wordsAt, hr, ha, hv', decode, hd]⟩
    | unknown op => simp [hd] at h
    | reserved => simp [hd] at h

/-- The errors of the fetch part and the state each leaves (40_step_cycle R112). -/
theorem State.fetch_stop (s : State) (f : Fault) (h : s.fetch = .stop f) :
    s.halted = false ∧
      ((∃ a, ¬ a < s.memSize ∧
          (f = .memoryAccessError a s ∨
            (f = .memoryAccessError a (s.setPc (s.pc + 1#32)) ∧ a = s.pc + 1#32))) ∨
        ∃ op, f = s.softHalt op ∧ s.pc < s.memSize) := by
  unfold State.fetch at h
  split at h
  · cases h
  next hh =>
  refine ⟨by simpa using hh, ?_⟩
  cases hr : s.memRead s.pc with
  | error g =>
    simp only [hr, Fetched.stop.injEq] at h
    subst h
    obtain ⟨ha, rfl⟩ := (s.memRead_eq_error _ _).mp hr
    exact .inl ⟨_, ha, .inl rfl⟩
  | ok w =>
    simp only [hr, State.fetchRest] at h
    have hlt := ((s.memRead_eq_ok _ _).mp hr).1
    cases hd : decodeHeader w with
    | complete j => simp [hd] at h
    | needsLiteral d =>
      simp only [hd, State.fetchLiteral] at h
      split at h
      · cases h
      · next g hg =>
        simp only [Fetched.stop.injEq] at h
        subst h
        obtain ⟨ha, rfl⟩ := (State.memRead_eq_error _ _ _).mp hg
        exact .inl ⟨_, ha, .inr ⟨rfl, rfl⟩⟩
    | needsTwoLiterals =>
      simp only [hd, State.fetchTwoLiterals] at h
      split at h
      · next g hg =>
        simp only [Fetched.stop.injEq] at h
        subst h
        obtain ⟨ha, rfl⟩ := (s.memRead_eq_error _ _).mp hg
        exact .inl ⟨_, ha, .inl rfl⟩
      next a ha =>
      split at h
      · next g hg =>
        simp only [Fetched.stop.injEq] at h
        subst h
        obtain ⟨ha, rfl⟩ := (s.memRead_eq_error _ _).mp hg
        exact .inl ⟨_, ha, .inl rfl⟩
      · cases h
    | unknown op =>
      simp only [hd, Fetched.stop.injEq] at h
      exact .inr ⟨op, h.symm, hlt⟩
    | reserved => simp [hd] at h

/-- A fetch hands out a reserved word only for a word the decoder calls reserved. -/
theorem State.fetch_reserved (s : State) (w a : Word) (h : s.fetch = .reserved w a) :
    s.halted = false ∧ s.memRead s.pc = .ok w ∧ a = s.pc ∧ decodeHeader w = .reserved := by
  unfold State.fetch at h
  split at h
  · cases h
  next hh =>
  cases hr : s.memRead s.pc with
  | error g => simp [hr] at h
  | ok u =>
    simp only [hr, State.fetchRest] at h
    cases hd : decodeHeader u with
    | complete j => simp [hd] at h
    | needsLiteral d => simp only [hd, State.fetchLiteral] at h; split at h <;> cases h
    | needsTwoLiterals =>
      simp only [hd, State.fetchTwoLiterals] at h
      split at h
      · cases h
      · split at h <;> cases h
    | unknown op => simp [hd] at h
    | reserved =>
      simp only [hd, Fetched.reserved.injEq] at h
      obtain ⟨rfl, rfl⟩ := h
      exact ⟨by simpa using hh, rfl, rfl, hd⟩

/-! ### The step -/

/-- Everything a step can be (40_step_cycle R100). -/
theorem step_cases (s : State) :
    (s.halted = true ∧ step s = .next s) ∨
      (∃ i t, s.fetch = .run i t ∧ step s = exec i t) ∨
      (∃ f, s.fetch = .stop f ∧ step s = .fault f) ∨
      (∃ w a, s.fetch = .reserved w a ∧ step s = .refused (.reservedEncoding w a)) := by
  unfold step
  cases hf : s.fetch with
  | halted =>
    refine .inl ⟨?_, rfl⟩
    unfold State.fetch at hf
    split at hf
    · assumption
    · split at hf
      · cases hf
      · unfold State.fetchRest at hf
        split at hf
        · cases hf
        · unfold State.fetchLiteral at hf
          simp only at hf
          split at hf <;> cases hf
        · unfold State.fetchTwoLiterals at hf
          split at hf
          · cases hf
          · split at hf <;> cases hf
        · cases hf
        · cases hf
  | run i t => exact .inr (.inl ⟨i, t, rfl, rfl⟩)
  | stop f => exact .inr (.inr (.inl ⟨f, rfl, rfl⟩))
  | reserved w a => exact .inr (.inr (.inr ⟨w, a, rfl, rfl⟩))

end Sys2Proof.Machine
end

