-- ==== Sys2Proof/Laws/Exec.lean ====
section
/-! SUPPORT. What a handler can do, said once: the shapes of its next state, its faults, and that it
never refuses. -/

namespace Sys2Proof.Machine

/-! ### What a jump leaves unchanged -/

@[simp] theorem State.jumpIf_sp (s : State) (b : Bool) (t : Half) :
    (s.jumpIf b t).sp = s.sp := by
  cases b <;> rfl

@[simp] theorem State.jumpIf_flags (s : State) (b : Bool) (t : Half) :
    (s.jumpIf b t).flags = s.flags := by
  cases b <;> rfl

@[simp] theorem State.jumpIf_halted (s : State) (b : Bool) (t : Half) :
    (s.jumpIf b t).halted = s.halted := by
  cases b <;> rfl

@[simp] theorem State.jumpIf_mem (s : State) (b : Bool) (t : Half) :
    (s.jumpIf b t).mem = s.mem := by
  cases b <;> rfl

@[simp] theorem State.jumpIf_memSize (s : State) (b : Bool) (t : Half) :
    (s.jumpIf b t).memSize = s.memSize := by
  cases b <;> rfl

@[simp] theorem State.jumpIf_reg (s : State) (b : Bool) (t : Half) (r : Reg) :
    (s.jumpIf b t).reg r = s.reg r := by
  cases b <;> rfl

theorem State.jumpIf_pc (s : State) (b : Bool) (t : Half) :
    (s.jumpIf b t).pc = if b then zext32 t else s.pc := by
  cases b <;> rfl

/-- The extension keeps the value (30_encoding R76). -/
@[simp] theorem zext32_toNat (h : Half) : (zext32 h).toNat = h.toNat := by
  simp only [zext32, BitVec.toNat_setWidth]
  omega

theorem zext32_eq_ofNat (h : Half) : zext32 h = BitVec.ofNat 32 h.toNat :=
  BitVec.eq_of_toNat_eq (by simp only [zext32_toNat, BitVec.toNat_ofNat]; omega)

/-! ### Handlers -/

/-- The shapes of the state a handler answers (10_state R45): each names the few fields it writes. -/
inductive Effect (s : State) : State → Prop where
  | same : Effect s s
  | setReg (d : Reg) (v : Word) : Effect s (s.setReg d v)
  | aluWrite (op : AluOp) (d : Reg) (b : Word) : Effect s (s.aluWrite op d b)
  | setZS (res : Word) : Effect s (s.setZS res)
  | setPc (t : Word) : Effect s (s.setPc t)
  | store (a v : Word) (h : a < s.memSize) : Effect s (s.putWord a v)
  | push (v t : Word) (h0 : s.sp ≠ 0#32) (h : s.sp - 1#32 < s.memSize) :
      Effect s (((s.setSp (s.sp - 1#32)).putWord (s.sp - 1#32) v).setPc t)
  | popReg (d : Reg) (h : s.sp < s.memSize) :
      Effect s ((s.setSp (s.sp + 1#32)).setReg d (s.mem.read s.sp.toNat))
  | popPc (h : s.sp < s.memSize) :
      Effect s ((s.setSp (s.sp + 1#32)).setPc (s.mem.read s.sp.toNat))
  | halt : Effect s s.halt

theorem State.setPc_self (s : State) : s.setPc s.pc = s := rfl

theorem effect_jumpIf (s : State) (b : Bool) (t : Half) : Effect s (s.jumpIf b t) := by
  unfold State.jumpIf
  split
  · exact .setPc _
  · exact .same

/-- A handler that answers a next state has one of the shapes of `Effect`. -/
theorem exec_next (i : Instr) (s t : State) (h : exec i s = .next t) : Effect s t := by
  cases i with
  | load d a =>
    obtain ⟨v, -, rfl⟩ := (Except.map_eq_ok _ _ _).mp ((finish_eq_next _ _).mp h)
    exact .setReg d v
  | store v a =>
    obtain ⟨hlt, rfl⟩ := (s.memWrite_eq_ok _ _ _).mp ((finish_eq_next _ _).mp h)
    exact .store _ _ hlt
  | storeI32 a v =>
    obtain ⟨hlt, rfl⟩ := (s.memWrite_eq_ok _ _ _).mp ((finish_eq_next _ _).mp h)
    exact .store _ _ hlt
  | push r =>
    obtain ⟨h0, hlt, rfl⟩ := (s.push_eq_ok _ _).mp ((finish_eq_next _ _).mp h)
    exact .push (s.reg r) s.pc h0 hlt
  | call t =>
    obtain ⟨u, hu, rfl⟩ := (Except.map_eq_ok _ _ _).mp ((finish_eq_next _ _).mp h)
    obtain ⟨h0, hlt, rfl⟩ := (s.push_eq_ok _ _).mp hu
    exact .push _ _ h0 hlt
  | pop r =>
    obtain ⟨⟨v, u⟩, hu, rfl⟩ := (Except.map_eq_ok _ _ _).mp ((finish_eq_next _ _).mp h)
    obtain ⟨hlt, rfl, rfl⟩ := (s.pop_eq_ok _ _).mp hu
    exact .popReg r hlt
  | ret =>
    obtain ⟨⟨v, u⟩, hu, rfl⟩ := (Except.map_eq_ok _ _ _).mp ((finish_eq_next _ _).mp h)
    obtain ⟨hlt, rfl, rfl⟩ := (s.pop_eq_ok _ _).mp hu
    exact .popPc hlt
  | nop => cases h; exact .same
  | inp r => cases h; exact .same
  | out r => cases h; exact .same
  | hlt => cases h; exact .halt
  | movRR d r => cases h; exact .setReg _ _
  | movI16 d k => cases h; exact .setReg _ _
  | movI32 d k => cases h; exact .setReg _ _
  | add d r => cases h; exact .aluWrite _ _ _
  | sub d r => cases h; exact .aluWrite _ _ _
  | and d r => cases h; exact .aluWrite _ _ _
  | or d r => cases h; exact .aluWrite _ _ _
  | xor d r => cases h; exact .aluWrite _ _ _
  | not d => cases h; exact .aluWrite _ _ _
  | addI16 d k => cases h; exact .aluWrite _ _ _
  | cmpI16 r k => cases h; exact .setZS _
  | cmpRR r q => cases h; exact .setZS _
  | jmp t => cases h; exact effect_jumpIf _ _ _
  | jz t => cases h; exact effect_jumpIf _ _ _
  | jnz t => cases h; exact effect_jumpIf _ _ _
  | jl t => cases h; exact effect_jumpIf _ _ _
  | jg t => cases h; exact effect_jumpIf _ _ _
  | jle t => cases h; exact effect_jumpIf _ _ _
  | jge t => cases h; exact effect_jumpIf _ _ _

/-- The faults of a handler: a bad address or a stack error with the state untouched, or, where `sp`
stands above MEM_SIZE, a push that faults after its decrement (notes/assumptions/30.md). -/
theorem exec_fault (i : Instr) (s : State) (f : Fault) (h : exec i s = .fault f) :
    (∃ a, ¬ a < s.memSize ∧ f = .memoryAccessError a s) ∨
      (s.sp = 0#32 ∧ f = .stackError .overflow s) ∨
      (¬ s.sp < s.memSize ∧ f = .stackError .underflow s) ∨
      (s.memSize < s.sp ∧ f = .memoryAccessError (s.sp - 1#32) (s.setSp (s.sp - 1#32))) := by
  have hpush : ∀ v, s.push v = .error f →
      (s.sp = 0#32 ∧ f = .stackError .overflow s) ∨
      (s.memSize < s.sp ∧ f = .memoryAccessError (s.sp - 1#32) (s.setSp (s.sp - 1#32))) := by
    intro v hv
    rcases (s.push_eq_error _ _).mp hv with h | ⟨h0, hlt, hf⟩
    · exact .inl h
    · refine .inr ⟨?_, hf⟩
      by_contra hle
      exact hlt (s.pushSlot_lt h0 (BitVec.not_lt.mp hle))
  cases i with
  | load d a =>
    obtain ⟨hlt, rfl⟩ := (s.memRead_eq_error _ _).mp
      ((Except.map_eq_error _ _ _).mp ((finish_eq_fault _ _).mp h))
    exact .inl ⟨_, hlt, rfl⟩
  | store v a =>
    obtain ⟨hlt, rfl⟩ := (s.memWrite_eq_error _ _ _).mp ((finish_eq_fault _ _).mp h)
    exact .inl ⟨_, hlt, rfl⟩
  | storeI32 a v =>
    obtain ⟨hlt, rfl⟩ := (s.memWrite_eq_error _ _ _).mp ((finish_eq_fault _ _).mp h)
    exact .inl ⟨_, hlt, rfl⟩
  | push r =>
    rcases hpush _ ((finish_eq_fault _ _).mp h) with h | h
    · exact .inr (.inl h)
    · exact .inr (.inr (.inr h))
  | call t =>
    rcases hpush _ ((Except.map_eq_error _ _ _).mp ((finish_eq_fault _ _).mp h)) with h | h
    · exact .inr (.inl h)
    · exact .inr (.inr (.inr h))
  | pop r =>
    exact .inr (.inr (.inl ((s.pop_eq_error _).mp
      ((Except.map_eq_error _ _ _).mp ((finish_eq_fault _ _).mp h)))))
  | ret =>
    exact .inr (.inr (.inl ((s.pop_eq_error _).mp
      ((Except.map_eq_error _ _ _).mp ((finish_eq_fault _ _).mp h)))))
  | nop | inp _ | out _ | hlt | movRR _ _ | movI16 _ _ | movI32 _ _ | add _ _ | sub _ _ | and _ _
  | or _ _ | xor _ _ | not _ | addI16 _ _ | cmpI16 _ _ | cmpRR _ _ | jmp _ | jz _ | jnz _ | jl _
  | jg _ | jle _ | jge _ => cases h

/-- No handler refuses. -/
theorem exec_not_refused (i : Instr) (s : State) (r : Refusal) : exec i s ≠ .refused r := by
  cases i <;> first | exact finish_ne_refused _ _ | nofun

end Sys2Proof.Machine
end

