-- ==== Sys2Proof/Laws/Host.lean ====
section
/-! SUPPORT. Runs of words in memory (reading and placing them), and which states and faults keep the
parts of the invariant. -/

namespace Sys2Proof.Machine

/-! ### Reading a run of words -/

/-- A run of words inside memory reads word by word. -/
theorem State.wordsAt_inside (s : State) (n : Nat) (a : Word) (h : a.toNat + n ≤ s.memSize.toNat) :
    s.wordsAt a n = (List.range n).map fun k => s.mem.read (a.toNat + k) := by
  induction n generalizing a with
  | zero => rfl
  | succ n ih =>
    have hs := s.memSize.isLt
    have hlt : a < s.memSize := by rw [BitVec.lt_def]; omega
    have hr : s.memRead a = .ok (s.mem.read a.toNat) := (s.memRead_eq_ok _ _).mpr ⟨hlt, rfl⟩
    simp only [State.wordsAt, hr]
    cases n with
    | zero => rfl
    | succ n =>
      have ha : (a + 1#32).toNat = a.toNat + 1 := by
        rw [BitVec.toNat_add]; simp only [BitVec.toNat_ofNat]; omega
      rw [ih (a + 1#32) (by omega), List.range_succ_eq_map (n := n + 1), List.map_cons, List.map_map]
      refine congrArg₂ _ rfl (List.map_congr_left fun k _ => ?_)
      simp only [Function.comp, ha]
      congr 1
      omega

/-- A run of words at a readable address begins with the word there. -/
theorem State.wordsAt_succ (s : State) (n : Nat) (a w : Word) (h : s.memRead a = .ok w) :
    s.wordsAt a (n + 1) = w :: s.wordsAt (a + 1#32) n := by
  simp [State.wordsAt, h]

/-! ### Placing words -/

theorem State.placeWords_frame (ws : List Word) (s : State) (a : Word) :
    (s.placeWords a ws).regs = s.regs ∧ (s.placeWords a ws).pc = s.pc ∧
      (s.placeWords a ws).sp = s.sp ∧ (s.placeWords a ws).flags = s.flags ∧
      (s.placeWords a ws).halted = s.halted ∧ (s.placeWords a ws).memSize = s.memSize := by
  induction ws generalizing s a with
  | nil => simp [State.placeWords]
  | cons w ws ih =>
    unfold State.placeWords
    split
    · next t ht =>
      obtain ⟨-, rfl⟩ := (s.memWrite_eq_ok _ _ _).mp ht
      simpa using ih (s.putWord a w) (a + 1#32)
    · simp

/-- Words placed inside memory stand in order from the base up, and no other word has changed. -/
theorem State.placeWords_read (ws : List Word) (s : State) (a : Word)
    (h : a.toNat + ws.length ≤ s.memSize.toNat) (b : Nat) :
    (s.placeWords a ws).mem.read b =
      if hb : a.toNat ≤ b ∧ b < a.toNat + ws.length then ws[b - a.toNat]'(by omega)
      else s.mem.read b := by
  induction ws generalizing s a with
  | nil =>
    simp only [State.placeWords, List.length_nil]
    rw [dif_neg (by omega)]
  | cons w ws ih =>
    simp only [List.length_cons] at h ⊢
    have hs := s.memSize.isLt
    have hlt : a < s.memSize := by rw [BitVec.lt_def]; omega
    simp only [State.placeWords, (s.memWrite_eq_ok (s.putWord a w) a w).mpr ⟨hlt, rfl⟩]
    cases ws with
    | nil =>
      simp only [State.placeWords, State.putWord_mem, Memory.read_write, List.length_nil]
      by_cases hb : b = a.toNat
      · subst hb; simp
      · rw [if_neg hb, dif_neg (by omega)]
    | cons v vs =>
      have ha : (a + 1#32).toNat = a.toNat + 1 := by
        rw [BitVec.toNat_add]; simp only [BitVec.toNat_ofNat]
        simp only [List.length_cons] at h; omega
      rw [ih (s.putWord a w) (a + 1#32) (by simp only [State.putWord_memSize]; omega)]
      simp only [ha, State.putWord_mem, Memory.read_write]
      by_cases hb : b = a.toNat
      · subst hb; rw [dif_neg (by omega)]; simp
      · by_cases hin : a.toNat + 1 ≤ b ∧ b < a.toNat + 1 + (v :: vs).length
        · rw [dif_pos hin, dif_pos (by omega)]
          obtain ⟨k, rfl⟩ : ∃ k, b = a.toNat + (k + 1) := ⟨b - a.toNat - 1, by omega⟩
          have e1 : a.toNat + (k + 1) - (a.toNat + 1) = k := by omega
          have e2 : a.toNat + (k + 1) - a.toNat = k + 1 := by omega
          simp only [e1, e2, List.getElem_cons_succ]
        · rw [dif_neg hin, if_neg hb, dif_neg (by omega)]

/-- Placing words keeps memory canonical and inside its bounds. -/
theorem State.placeWords_memOk (ws : List Word) (s : State) (a : Word) (h : s.memOk = true) :
    (s.placeWords a ws).memOk = true := by
  induction ws generalizing s a with
  | nil => exact h
  | cons w ws ih =>
    unfold State.placeWords
    split
    · next t ht =>
      obtain ⟨hlt, rfl⟩ := (s.memWrite_eq_ok _ _ _).mp ht
      refine ih _ _ ?_
      simp only [State.memOk, Bool.and_eq_true] at h ⊢
      exact ⟨Memory.write_keeps_wf _ _ _ h.1,
        Memory.write_keeps_inside _ _ _ _ h.2 (BitVec.lt_def.mp hlt)⟩
    · exact h

/-! ### The invariant -/

/-- Memory stays canonical and inside its bounds through a checked write. -/
theorem State.putWord_memOk (s : State) (a v : Word) (h : s.memOk = true) (ha : a < s.memSize) :
    (s.putWord a v).memOk = true := by
  simp only [State.memOk, Bool.and_eq_true] at h ⊢
  exact ⟨Memory.write_keeps_wf _ _ _ h.1,
    Memory.write_keeps_inside _ _ _ _ h.2 (BitVec.lt_def.mp ha)⟩

/-- A flag update keeps the inert flags clear and never sets both others. -/
theorem Flags.setZS_ok (f : Flags) (res : Word) (h : f.inertClear = true) :
    (f.setZS res).inertClear = true ∧ (f.setZS res).zsOk = true :=
  ⟨h, by rw [Flags.zsOk, Flags.setZS_not_both]; rfl⟩

theorem State.Inv_iff (s : State) :
    s.Inv = true ↔ s.memOk = true ∧ s.sp ≤ s.memSize ∧ s.flags.inertClear = true ∧
      s.flags.zsOk = true := by
  simp [State.Inv, State.spOk, and_assoc]

/-! ### Runs (40_step_cycle R109) -/

theorem run_of_halted (n : Nat) (s : State) (h : s.halted = true) : run n s = (.halted, s) := by
  cases n <;> simp [run, h]

theorem run_zero (s : State) (h : s.halted = false) : run 0 s = (.unfinished, s) := by
  simp [run, h]

/-- A run of a running engine is its first step and the run from there, or ends at that step. -/
theorem run_succ (n : Nat) (s : State) (h : s.halted = false) :
    run (n + 1) s = match step s with
      | .next t => run n t
      | .fault (.unknownOpcode op addr t) => (.unknownOpcode op addr, t)
      | .fault f => (.error f, f.left)
      | .refused r => (.refused r, s) := by
  rcases hs : step s with t | (_ | _ | _) | r <;> simp [run, h, hs]

theorem run_next (n : Nat) (s t : State) (h : s.halted = false) (hs : step s = .next t) :
    run (n + 1) s = run n t := by
  rw [run_succ n s h, hs]

/-- A run that a first step does not carry on neither halts nor stays unfinished. -/
theorem run_not_next (n : Nat) (s : State) (h : s.halted = false) (hs : ∀ t, step s ≠ .next t) :
    (run (n + 1) s).1 ≠ .halted ∧ (run (n + 1) s).1 ≠ .unfinished := by
  rw [run_succ n s h]
  split <;> first | exact absurd ‹_› (hs _) | exact ⟨nofun, nofun⟩

/-- A run that is still unfinished has come to an engine that is not halted. -/
theorem run_unfinished (n : Nat) (s u : State) (h : run n s = (.unfinished, u)) :
    u.halted = false := by
  induction n generalizing s with
  | zero =>
    cases hh : s.halted
    · rw [run_zero s hh] at h
      cases h
      exact hh
    · rw [run_of_halted 0 s hh] at h
      cases h
  | succ n ih =>
    cases hh : s.halted
    · by_cases hn : ∃ t, step s = .next t
      · obtain ⟨t, ht⟩ := hn
        exact ih t (run_next n s t hh ht ▸ h)
      · exact absurd (congrArg Prod.fst h) (run_not_next n s hh fun t ht => hn ⟨t, ht⟩).2
    · rw [run_of_halted _ s hh] at h
      cases h

/-! ### Launching a program (70_reset_and_hazards R231, R232) -/

/-- A load that fits leaves its words at the base. -/
theorem State.loadProgram_holdsProgram (s t : State) (words : List Word) (base : Word)
    (h : s.loadProgram words base = .next t) : t.holdsProgram words base = true := by
  unfold State.loadProgram at h
  split at h
  · next hp =>
    cases h
    have hfit : base.toNat + words.length ≤ s.memSize.toNat := by simpa [programFits] using hp
    have hf := (s.placeWords_frame words base).2.2.2.2.2
    have hw : ((s.placeWords base words).setPc base).wordsAt base words.length = words := by
      rw [State.wordsAt_inside _ _ _ (by rw [State.setPc_memSize, hf]; exact hfit)]
      refine List.ext_getElem (by simp) fun k hk hk' => ?_
      simp only [List.getElem_map, List.getElem_range]
      rw [State.setPc_mem, s.placeWords_read words base hfit, dif_pos (by omega)]
      simp
    simp only [State.holdsProgram, hw, State.setPc_memSize, hf, hp, beq_self_eq_true, Bool.and_self]
  · cases h

/-- After construction and a load that fits, the launch premises hold as far as they concern the
engine: `sp` is MEM_SIZE, registers, ZERO and SIGN are 0 (the zeros are the spec's decision D2,
notes/assumptions/3.md). -/
theorem State.load_fresh_launchOk (n : Word) (l : Launch) (t : State)
    (hsize : l.minSize ≤ n.toNat ∧ n.toNat ≤ l.maxSize) (hsp : l.sp = n)
    (hstack : l.stackClear = true) (hregs : ∀ p ∈ l.regs, p.2 = 0#32) (hz : l.zero ≠ some true)
    (hn : l.sign ≠ some true) (h : (State.construct n).loadProgram l.words l.base = .next t) :
    t.launchOk l = true := by
  have hprog := State.loadProgram_holdsProgram _ t _ _ h
  have hreg : ∀ r, (State.construct n).reg r = 0#32 := fun r => by
    simp [State.reg, State.construct]
  unfold State.loadProgram at h
  split at h
  · cases h
    obtain ⟨hr, -, hs, hf, hh, hm⟩ := (State.construct n).placeWords_frame l.words l.base
    simp only [State.launchOk, hprog, State.setPc_memSize, State.setPc_pc, State.setPc_halted,
      State.setPc_sp, State.setPc_flags, State.setPc_reg, hs, hf, hh, hm, hstack, hsp,
      Bool.and_eq_true, decide_eq_true_eq, List.all_eq_true, beq_iff_eq]
    refine ⟨⟨⟨⟨⟨⟨⟨⟨hsize, trivial⟩, trivial⟩, rfl⟩, rfl⟩, trivial⟩, fun p hp => ?_⟩, ?_⟩, ?_⟩
    · rw [hregs p hp, ← hreg p.1]
      simp only [State.reg, hr]
    · rcases hl : l.zero with _ | _ | _ <;> first | rfl | exact absurd hl hz
    · rcases hl : l.sign with _ | _ | _ <;> first | rfl | exact absurd hl hn
  · cases h

end Sys2Proof.Machine
end

