-- ==== Sys2Proof/Laws/PerInstr.lean ====
section
/-! SUPPORT. One lemma per instruction: its canonical encoding has the length and the opcode byte the
opcode table gives it (30_encoding R70, R80, and the assembler's property R99). -/

namespace Sys2Proof.Laws

/-- The encoding of an instruction has as many words as the instruction occupies, its first word's top
byte is the instruction's opcode, and that opcode is in the table (30_encoding R99). -/
def OpcodeByte.Statement (i : Instr) : Prop :=
  (encode i).length = i.words ∧ (encode i).head?.map opcodeOf = some i.opcode ∧
    (formatOf i.opcode).isSome = true

theorem OpcodeByte.nop : OpcodeByte.Statement .nop :=
  ⟨rfl, congrArg some (opcodeOf_wordN ..), rfl⟩

theorem OpcodeByte.movRR (d : Reg) (s : Reg) : OpcodeByte.Statement (.movRR d s) :=
  ⟨rfl, congrArg some (opcodeOf_wordRR ..), rfl⟩

theorem OpcodeByte.movI16 (d : Reg) (k : Half) : OpcodeByte.Statement (.movI16 d k) :=
  ⟨rfl, congrArg some (opcodeOf_wordRI ..), rfl⟩

theorem OpcodeByte.load (d : Reg) (a : Reg) : OpcodeByte.Statement (.load d a) :=
  ⟨rfl, congrArg some (opcodeOf_wordRR ..), rfl⟩

theorem OpcodeByte.store (v : Reg) (a : Reg) : OpcodeByte.Statement (.store v a) :=
  ⟨rfl, congrArg some (opcodeOf_wordRR ..), rfl⟩

theorem OpcodeByte.add (d : Reg) (s : Reg) : OpcodeByte.Statement (.add d s) :=
  ⟨rfl, congrArg some (opcodeOf_wordRR ..), rfl⟩

theorem OpcodeByte.sub (d : Reg) (s : Reg) : OpcodeByte.Statement (.sub d s) :=
  ⟨rfl, congrArg some (opcodeOf_wordRR ..), rfl⟩

theorem OpcodeByte.and (d : Reg) (s : Reg) : OpcodeByte.Statement (.and d s) :=
  ⟨rfl, congrArg some (opcodeOf_wordRR ..), rfl⟩

theorem OpcodeByte.or (d : Reg) (s : Reg) : OpcodeByte.Statement (.or d s) :=
  ⟨rfl, congrArg some (opcodeOf_wordRR ..), rfl⟩

theorem OpcodeByte.xor (d : Reg) (s : Reg) : OpcodeByte.Statement (.xor d s) :=
  ⟨rfl, congrArg some (opcodeOf_wordRR ..), rfl⟩

theorem OpcodeByte.not (d : Reg) : OpcodeByte.Statement (.not d) :=
  ⟨rfl, congrArg some (opcodeOf_wordR ..), rfl⟩

theorem OpcodeByte.cmpI16 (r : Reg) (k : Half) : OpcodeByte.Statement (.cmpI16 r k) :=
  ⟨rfl, congrArg some (opcodeOf_wordRI ..), rfl⟩

theorem OpcodeByte.cmpRR (r : Reg) (s : Reg) : OpcodeByte.Statement (.cmpRR r s) :=
  ⟨rfl, congrArg some (opcodeOf_wordRR ..), rfl⟩

theorem OpcodeByte.jmp (t : Half) : OpcodeByte.Statement (.jmp t) :=
  ⟨rfl, congrArg some (opcodeOf_wordJ ..), rfl⟩

theorem OpcodeByte.jz (t : Half) : OpcodeByte.Statement (.jz t) :=
  ⟨rfl, congrArg some (opcodeOf_wordJ ..), rfl⟩

theorem OpcodeByte.jnz (t : Half) : OpcodeByte.Statement (.jnz t) :=
  ⟨rfl, congrArg some (opcodeOf_wordJ ..), rfl⟩

theorem OpcodeByte.jl (t : Half) : OpcodeByte.Statement (.jl t) :=
  ⟨rfl, congrArg some (opcodeOf_wordJ ..), rfl⟩

theorem OpcodeByte.jg (t : Half) : OpcodeByte.Statement (.jg t) :=
  ⟨rfl, congrArg some (opcodeOf_wordJ ..), rfl⟩

theorem OpcodeByte.jle (t : Half) : OpcodeByte.Statement (.jle t) :=
  ⟨rfl, congrArg some (opcodeOf_wordJ ..), rfl⟩

theorem OpcodeByte.jge (t : Half) : OpcodeByte.Statement (.jge t) :=
  ⟨rfl, congrArg some (opcodeOf_wordJ ..), rfl⟩

theorem OpcodeByte.call (t : Half) : OpcodeByte.Statement (.call t) :=
  ⟨rfl, congrArg some (opcodeOf_wordJ ..), rfl⟩

theorem OpcodeByte.ret : OpcodeByte.Statement .ret :=
  ⟨rfl, congrArg some (opcodeOf_wordN ..), rfl⟩

theorem OpcodeByte.push (r : Reg) : OpcodeByte.Statement (.push r) :=
  ⟨rfl, congrArg some (opcodeOf_wordR ..), rfl⟩

theorem OpcodeByte.pop (r : Reg) : OpcodeByte.Statement (.pop r) :=
  ⟨rfl, congrArg some (opcodeOf_wordR ..), rfl⟩

theorem OpcodeByte.inp (r : Reg) : OpcodeByte.Statement (.inp r) :=
  ⟨rfl, congrArg some (opcodeOf_wordR ..), rfl⟩

theorem OpcodeByte.out (r : Reg) : OpcodeByte.Statement (.out r) :=
  ⟨rfl, congrArg some (opcodeOf_wordR ..), rfl⟩

theorem OpcodeByte.movI32 (d : Reg) (l : Word) : OpcodeByte.Statement (.movI32 d l) :=
  ⟨rfl, congrArg some (opcodeOf_wordRL ..), rfl⟩

theorem OpcodeByte.storeI32 (a : Word) (v : Word) : OpcodeByte.Statement (.storeI32 a v) :=
  ⟨rfl, congrArg some (opcodeOf_wordLL ..), rfl⟩

theorem OpcodeByte.addI16 (d : Reg) (k : Half) : OpcodeByte.Statement (.addI16 d k) :=
  ⟨rfl, congrArg some (opcodeOf_wordRI ..), rfl⟩

theorem OpcodeByte.hlt : OpcodeByte.Statement .hlt :=
  ⟨rfl, congrArg some (opcodeOf_wordN ..), rfl⟩

end Sys2Proof.Laws
end

