-- ==== Sys2Proof/Machine/Assembler.lean ====
section
/-! DEFINITION. The operand-shape rules of the assembly language and the two passes over labels
(30_encoding R91 to R98). The assembler is software outside the block and 00_scope R4 leaves it out as a
machine; the rules R4 keeps are given here on lines already split into tokens
(notes/assumptions/27.md). No step uses this file. -/

namespace Sys2Proof.Asm

/-- The mnemonics of source text (30_encoding R80, R92 to R94). -/
inductive Mnemonic where
  | nop | mov | load | store | add | sub | and | or | xor | not | cmp
  | jmp | jz | jnz | jl | jg | jle | jge | call | ret | push | pop | inp | out | hlt
deriving DecidableEq, Repr

/-- A token in an operand place: `r<n>`, a numeric literal, or a label (30_encoding R90, R93). -/
inductive Operand where
  | reg (n : Nat)
  | lit (v : Nat)
  | label (name : List Char)
deriving DecidableEq, Repr

/-- A line of source: a label definition or an instruction (30_encoding R90, R91). -/
inductive Line where
  | label (name : List Char)
  | instr (m : Mnemonic) (ops : List Operand)
deriving DecidableEq, Repr

/-- Label names "must be alphanumeric and not start with a digit" (30_encoding R91, R93). -/
def labelOk : List Char → Bool
  | [] => false
  | c :: cs => !c.isDigit && (c :: cs).all Char.isAlphanum

/-- A register token: 0 to 15, anything else is malformed (30_encoding R90, R96). -/
def regOf : Operand → Option Reg
  | .reg n => if n < 16 then some (BitVec.ofNat 4 n) else none
  | .lit _ | .label _ => none

/-- A 16-bit immediate, `<= 0xFFFF` (30_encoding R96). -/
def half (v : Nat) : Option Half := if v ≤ 0xFFFF then some (BitVec.ofNat 16 v) else none

/-- A 32-bit immediate, `<= 0xFFFFFFFF` (30_encoding R96). -/
def word (v : Nat) : Option Word := if v ≤ 0xFFFFFFFF then some (BitVec.ofNat 32 v) else none

/-- What a line emits before labels are resolved: a whole instruction, or a jump or call whose target
is a label usage (30_encoding R93). -/
inductive Item where
  | whole (i : Instr)
  | toLabel (f : Mnemonic) (name : List Char)
deriving DecidableEq, Repr

/-- Two register operands. -/
def two (mk : Reg → Reg → Instr) (a b : Operand) : Option Item := do
  return .whole (mk (← regOf a) (← regOf b))

/-- One register operand. -/
def one (mk : Reg → Instr) (a : Operand) : Option Item := do
  return .whole (mk (← regOf a))

/-- One label operand (30_encoding R93). DESIGN CHOICE (notes/assumptions/27.md): a register-shaped
token such as `r1` passes R93's test for a label and is a register operand by R90; it is read as a
register here too, so a jump to it gives no words. -/
def target (m : Mnemonic) : Operand → Option Item
  | .label name => if labelOk name then some (.toLabel m name) else none
  | .reg _ | .lit _ => none

/-- `MOV dst, literal`: 0x02 when it fits 16 bits, else 0xE2 (30_encoding R92). -/
def movLit (d : Reg) (v : Nat) : Option Item :=
  if v ≤ 0xFFFF then (half v).map fun h => .whole (.movI16 d h)
  else (word v).map fun w => .whole (.movI32 d w)

/-- The operand-shape-sensitive selection (30_encoding R92 to R94); `none` is an EncodingError (R96).
DEDUCED (notes/assumptions/27.md): the spec's decision D24. -/
def select (m : Mnemonic) (ops : List Operand) : Option Item :=
  match m, ops with
  | .nop, [] => some (.whole .nop)
  | .hlt, [] => some (.whole .hlt)
  | .ret, [] => some (.whole .ret)
  | .mov, [dst, .lit v] => do movLit (← regOf dst) v
  | .mov, [dst, x] => two .movRR dst x
  | .cmp, [dst, .lit v] => do return .whole (.cmpI16 (← regOf dst) (← half v))
  | .cmp, [dst, x] => two .cmpRR dst x
  | .add, [dst, .lit v] => do return .whole (.addI16 (← regOf dst) (← half v))
  | .add, [dst, x] => two .add dst x
  | .store, [.lit a, .lit v] => do return .whole (.storeI32 (← word a) (← word v))
  | .store, [addr, val] => two .store val addr
  | .load, [dst, addr] => two .load dst addr
  | .sub, [dst, src] => two .sub dst src
  | .and, [dst, src] => two .and dst src
  | .or, [dst, src] => two .or dst src
  | .xor, [dst, src] => two .xor dst src
  | .not, [r] => one .not r
  | .push, [r] => one .push r
  | .pop, [r] => one .pop r
  | .inp, [r] => one .inp r
  | .out, [r] => one .out r
  | .jmp, [x] => target .jmp x
  | .jz, [x] => target .jz x
  | .jnz, [x] => target .jnz x
  | .jl, [x] => target .jl x
  | .jg, [x] => target .jg x
  | .jle, [x] => target .jle x
  | .jge, [x] => target .jge x
  | .call, [x] => target .call x
  | _, _ => none

/-- The number of words an item emits (30_encoding R92). -/
def Item.words : Item → Nat
  | .whole i => i.words
  | .toLabel _ _ => 1

/-- The first pass: the items, and each label bound to the emitted-word address where it stands,
counted from 0 (30_encoding R91). -/
def scan : Nat → List Line → Option (List Item × List (List Char × Nat))
  | _, [] => some ([], [])
  | at_, .label name :: rest => do
    let r ← scan at_ rest
    if labelOk name then some (r.1, (name, at_) :: r.2) else none
  | at_, .instr m ops :: rest => do
    let i ← select m ops
    let r ← scan (at_ + i.words) rest
    return (i :: r.1, r.2)

/-- A jump or call instruction from its mnemonic and resolved target. -/
def jumpTo (m : Mnemonic) (t : Half) : Option Instr :=
  match m with
  | .jmp => some (.jmp t)
  | .jz => some (.jz t)
  | .jnz => some (.jnz t)
  | .jl => some (.jl t)
  | .jg => some (.jg t)
  | .jle => some (.jle t)
  | .jge => some (.jge t)
  | .call => some (.call t)
  | _ => none

/-- The second pass on one item: a label absent from the table fails (30_encoding R95). The source is
silent on a label beyond 0xFFFF (91_not_in_source N14): no words then, a DESIGN CHOICE
(notes/assumptions/27.md). -/
def resolve (labels : List (List Char × Nat)) : Item → Option Instr
  | .whole i => some i
  | .toLabel m name => do
    let e ← labels.find? (·.1 == name)
    jumpTo m (← half e.2)

/-- Assembly of a whole unit: all the words or none (30_encoding R95, R96). -/
def assemble (lines : List Line) : Option (List Word) := do
  let r ← scan 0 lines
  let is ← r.1.mapM (resolve r.2)
  return is.flatMap encode

end Sys2Proof.Asm
end

