-- ==== Sys2Proof/Tests/Slice0.lean ====
section
/-! SUPPORT. Tests by evaluation. Expected values come from the vectors of 95_test_vectors, whose names
stand in the comments; MEM_SIZE is 256 and A is 0x10 unless said. Last, the witnesses that the
hypotheses of the obligations can be met, one for each clause. -/

namespace Sys2Proof.Tests

open Sys2Proof.Machine

/-! ### A small engine and what a step gives -/

/-- A running engine: memory words, `pc`, `sp`, ZERO, SIGN and some registers set. -/
def eng (mem : Memory) (pc sp : Word) (z n : Bool) (regs : List (Reg × Word)) : State :=
  regs.foldl (fun s p => s.setReg p.1 p.2)
    { State.construct 256#32 with
      mem := mem, pc := pc, sp := sp, flags := ⟨false, z, false, n, false, false⟩ }

/-- The usual engine of a vector: the words from address 0x10, empty stack, flags clear. -/
def at10 (w : Word) (regs : List (Reg × Word)) : State := eng [(0x10, w)] 0x10#32 256#32 false false regs

/-- What one step gives: its result and the state after it. -/
def one (s : State) : StepResult × Option State := (stepResult (step s), stateAfter (step s))

/-- One step, and three words of the state after it: a register, `pc` and `sp`. -/
def seen (s : State) (r : Reg) : StepResult × Option (Word × Word × Word) :=
  ((one s).1, (one s).2.map fun t => (t.reg r, t.pc, t.sp))

/-- One step, and a register with ZERO and SIGN after it. -/
def zs (s : State) (r : Reg) : Option (Word × Bool × Bool) :=
  (one s).2.map fun t => (t.reg r, t.flags.zero, t.flags.sign)

/-- One step, and a word of memory with `pc` and `sp` after it. -/
def memSeen (s : State) (a : Nat) : StepResult × Option (Word × Word × Word) :=
  ((one s).1, (one s).2.map fun t => (t.mem.read a, t.pc, t.sp))

/-! ### Decoding, from the encodings of 30_encoding section 3 (V-ENC) -/

/-- The bytes of a word, bits 31:24 first. -/
def bytes (a b c d : Byte) : Word := a ++ b ++ c ++ d

theorem test_decode_data_movement :
    decode [bytes 0x01 0x03 0x01 0x00] = .instr (.movRR 3 1) [] ∧
    decode [bytes 0x02 0x01 0x00 0x0A] = .instr (.movI16 1 10) [] ∧
    decode [bytes 0x03 0x03 0x02 0x00] = .instr (.load 3 2) [] ∧
    decode [bytes 0x04 0x01 0x02 0x00] = .instr (.store 1 2) [] ∧
    decode [bytes 0xE2 0x01 0x00 0xFF, 0x12345678#32] = .instr (.movI32 1 0x12345678) [] ∧
    decode [bytes 0xE4 0xFF 0xFF 0xFF, 0x41#32, 0xDEADBEEF#32] =
      .instr (.storeI32 0x41 0xDEADBEEF) [] := by decide

theorem test_decode_alu :
    decode [bytes 0x05 0x01 0x02 0x00] = .instr (.add 1 2) [] ∧
    decode [bytes 0x06 0x01 0x02 0x00] = .instr (.sub 1 2) [] ∧
    decode [bytes 0x07 0x01 0x02 0x00] = .instr (.and 1 2) [] ∧
    decode [bytes 0x08 0x01 0x02 0x00] = .instr (.or 1 2) [] ∧
    decode [bytes 0x09 0x01 0x02 0x00] = .instr (.xor 1 2) [] ∧
    decode [bytes 0x0A 0x01 0x00 0x00] = .instr (.not 1) [] ∧
    decode [bytes 0xE5 0x01 0x00 0x05] = .instr (.addI16 1 5) [] := by decide

theorem test_decode_compare_branch :
    decode [bytes 0x10 0x01 0x00 0x05] = .instr (.cmpI16 1 5) [] ∧
    decode [bytes 0x11 0x01 0x02 0x00] = .instr (.cmpRR 1 2) [] ∧
    decode [bytes 0x12 0x00 0x00 0x20] = .instr (.jmp 0x20) [] ∧
    decode [bytes 0x13 0x00 0x00 0x20] = .instr (.jz 0x20) [] ∧
    decode [bytes 0x14 0x00 0x00 0x20] = .instr (.jnz 0x20) [] ∧
    decode [bytes 0x15 0x00 0x00 0x20] = .instr (.jl 0x20) [] ∧
    decode [bytes 0x16 0x00 0x00 0x20] = .instr (.jg 0x20) [] ∧
    decode [bytes 0x17 0x00 0x00 0x20] = .instr (.jle 0x20) [] ∧
    decode [bytes 0x18 0x00 0x00 0x20] = .instr (.jge 0x20) [] := by decide

theorem test_decode_stack_system :
    decode [bytes 0x30 0x00 0x00 0x0A] = .instr (.call 10) [] ∧
    decode [bytes 0x31 0x00 0x00 0x00] = .instr .ret [] ∧
    decode [bytes 0x32 0x01 0x00 0x00] = .instr (.push 1) [] ∧
    decode [bytes 0x33 0x02 0x00 0x00] = .instr (.pop 2) [] ∧
    decode [bytes 0x40 0x01 0x00 0x00] = .instr (.inp 1) [] ∧
    decode [bytes 0x41 0x01 0x00 0x00] = .instr (.out 1) [] ∧
    decode [bytes 0x00 0x00 0x00 0x00] = .instr .nop [] ∧
    decode [bytes 0xFF 0x00 0x00 0x00] = .instr .hlt [] := by decide

/-- The encoder writes the same words (V-ENC, one of each format). -/
theorem test_encode :
    encode .hlt = [0xFF000000#32] ∧ encode (.push 1) = [0x32010000#32] ∧
    encode (.store 1 2) = [0x04010200#32] ∧ encode (.cmpI16 1 5) = [0x10010005#32] ∧
    encode (.call 10) = [0x3000000A#32] ∧
    encode (.movI32 1 0x12345678) = [0xE20100FF#32, 0x12345678#32] ∧
    encode (.storeI32 0x41 0xDEADBEEF) = [0xE4FFFFFF#32, 0x41#32, 0xDEADBEEF#32] := by decide

/-- V-DEC: register fields are masked and ignored bits do nothing. -/
theorem test_decode_masks :
    decode [0x01100000#32] = .instr (.movRR 0 0) [] ∧
    decode [0x01FFFF00#32] = .instr (.movRR 15 15) [] ∧
    decode [0xE2FFFFFF#32, 9#32] = .instr (.movI32 15 9) [] ∧
    decode [0xFFFFFFFF#32, 9#32] = .instr .hlt [9#32] ∧
    decode [0x00FFFFFF#32, 9#32] = .instr .nop [9#32] := by decide

/-- V-DEC: both ends of each gap of the opcode map are unknown. -/
theorem test_decode_unknown :
    ∀ op ∈ [0x0B, 0x0F, 0x19, 0x2F, 0x34, 0x3F, 0x42, 0xE1, 0xE3, 0xE6, 0xFE],
      decode [bytes (.ofNat 8 op) 0 0 0] = .unknown (.ofNat 8 op) := by decide

/-- V-DEC: a missing sentinel is reserved, and words may run out. -/
theorem test_decode_reserved :
    decode [0xE20100FE#32, 9#32] = .reserved 0xE20100FE#32 ∧
    decode [0xE4FFFFFE#32, 9#32, 9#32] = .reserved 0xE4FFFFFE#32 ∧
    decode [0xE400FFFF#32, 9#32, 9#32] = .reserved 0xE400FFFF#32 ∧
    decode [0xE20100FF#32] = .truncated ∧ decode [0xE4FFFFFF#32, 1#32] = .truncated := by decide

/-- 30_encoding R82: 30 opcodes are present and 226 absent. -/
theorem test_opcode_counts :
    opcodeTable.length = 30 ∧
    ((List.range 256).filter fun n => (formatOf (BitVec.ofNat 8 n)).isNone).length = 226 := by
  decide +kernel

/-- The host's numbering of bits: word 0 lowest, words beyond the row zero. -/
theorem test_decodeTableWord :
    decodeTableWord 32 0x05010200 = some (.add 1 2) ∧
    decodeTableWord 32 0xE4FFFFFF = some (.storeI32 0 0) ∧
    decodeTableWord 64 0x12345678E20100FF = some (.movI32 1 0x12345678) ∧
    decodeTableWord 32 0xE3000000 = none := by decide

/-! ### The checks of WellFormed, each with a term it refuses -/

theorem test_wellFormed_noFFLowByte :
    Instr.noFFLowByte (.movI16 1 0xFF) = false ∧ Instr.noFFLowByte (.movI16 1 0x100) = true := by
  decide

theorem test_wellFormed_programFits :
    programFits 256#32 255#32 2 = false ∧ programFits 256#32 255#32 1 = true := by decide

theorem test_wellFormed_canonicalWord :
    canonicalWord 0x01F3A1FF#32 = false ∧ canonicalWord 0x01030100#32 = true := by decide

theorem test_wellFormed_noFFLowByteWord :
    noFFLowByteWord 0x020100FF#32 = false ∧ noFFLowByteWord 0xE20100FF#32 = true := by decide

/-! ### One step of each instruction -/

/-- V-MV1 and V-MV3. -/
theorem test_mov_register :
    seen (at10 0x01030100#32 [(1, 0xCAFEBABE#32), (3, 5#32)]) 3 =
      (.ok, some (0xCAFEBABE#32, 0x11#32, 256#32)) ∧
    seen (at10 0x01F3A1FF#32 [(1, 0xCAFEBABE#32)]) 3 =
      (.ok, some (0xCAFEBABE#32, 0x11#32, 256#32)) := by decide

/-- V-MI2 and V-MI3. -/
theorem test_mov_imm16 :
    seen (at10 0x0201FFFF#32 []) 1 = (.ok, some (0xFFFF#32, 0x11#32, 256#32)) ∧
    seen (at10 0x020100FF#32 []) 1 = (.ok, some (0xFF#32, 0x11#32, 256#32)) := by decide

/-- V-ML1 and V-ML4. -/
theorem test_mov_imm32 :
    seen (eng [(0x10, 0xE20100FF#32), (0x11, 0x12345678#32)] 0x10#32 256#32 false false []) 1 =
      (.ok, some (0x12345678#32, 0x12#32, 256#32)) ∧
    seen (eng [(255, 0xE20100FF#32)] 255#32 256#32 false false [(1, 9#32)]) 1 =
      (.memoryAccessError 256#32, some (9#32, 256#32, 256#32)) := by decide

/-- V-LD1 and V-LD4. -/
theorem test_load :
    seen (eng [(0x10, 0x03030200#32), (0x40, 0x12345678#32)] 0x10#32 256#32 false false
      [(2, 0x40#32)]) 3 = (.ok, some (0x12345678#32, 0x11#32, 256#32)) ∧
    seen (at10 0x03020100#32 [(1, 0xFFFFFFFF#32), (2, 7#32)]) 2 =
      (.memoryAccessError 0xFFFFFFFF#32, some (7#32, 0x11#32, 256#32)) := by decide

/-- V-ST1 and V-ST3. -/
theorem test_store :
    memSeen (at10 0x04010200#32 [(1, 0x12345678#32), (2, 0x40#32)]) 0x40 =
      (.ok, some (0x12345678#32, 0x11#32, 256#32)) ∧
    memSeen (at10 0x04010200#32 [(1, 5#32), (2, 0x100#32)]) 0x100 =
      (.memoryAccessError 0x100#32, some (0#32, 0x11#32, 256#32)) := by decide

/-- V-SI1 and V-SI3. -/
theorem test_store_imm32 :
    memSeen (eng [(0x10, 0xE4FFFFFF#32), (0x11, 0x41#32), (0x12, 0xDEADBEEF#32)] 0x10#32 256#32
      false false []) 0x41 = (.ok, some (0xDEADBEEF#32, 0x13#32, 256#32)) ∧
    memSeen (eng [(254, 0xE4FFFFFF#32), (255, 1#32)] 254#32 256#32 false false []) 1 =
      (.memoryAccessError 256#32, some (0#32, 254#32, 256#32)) := by decide

/-- V-AD2 and V-AD3. -/
theorem test_add :
    zs (at10 0x05010200#32 [(1, 0xFFFFFFFF#32), (2, 1#32)]) 1 = some (0#32, true, false) ∧
    zs (at10 0x05010200#32 [(1, 0x7FFFFFFF#32), (2, 1#32)]) 1 =
      some (0x80000000#32, false, true) := by decide

/-- V-SB2 and V-SB6. -/
theorem test_sub :
    zs (at10 0x06010200#32 [(1, 5#32), (2, 7#32)]) 1 = some (0xFFFFFFFE#32, false, true) ∧
    zs (at10 0x06050500#32 [(5, 0xDEADBEEF#32)]) 5 = some (0#32, true, false) := by decide

/-- V-AN1 and V-AN3. -/
theorem test_and :
    zs (at10 0x07010200#32 [(1, 0xFF00FF00#32), (2, 0x0FF00FF0#32)]) 1 =
      some (0x0F000F00#32, false, false) ∧
    zs (at10 0x07010100#32 [(1, 0x80000001#32)]) 1 = some (0x80000001#32, false, true) := by decide

/-- V-OR1 and V-OR2. -/
theorem test_or :
    zs (at10 0x08010200#32 [(1, 0x80000000#32), (2, 1#32)]) 1 = some (0x80000001#32, false, true) ∧
    zs (at10 0x08010200#32 []) 1 = some (0#32, true, false) := by decide

/-- V-XR1 and V-XR2. -/
theorem test_xor :
    zs (at10 0x09010200#32 [(1, 0xAAAAAAAA#32), (2, 0xFFFFFFFF#32)]) 1 =
      some (0x55555555#32, false, false) ∧
    zs (at10 0x09030300#32 [(3, 0x12345678#32)]) 3 = some (0#32, true, false) := by decide

/-- V-NT1 and V-NT4. -/
theorem test_not :
    zs (at10 0x0A010000#32 [(1, 0xFFFF#32)]) 1 = some (0xFFFF0000#32, false, true) ∧
    zs (at10 0x0A01BEEF#32 [(1, 0xFFFF#32), (14, 3#32)]) 14 = some (3#32, false, true) := by decide

/-- V-AI2 and V-AI3. -/
theorem test_add_imm16 :
    zs (at10 0xE501FFFF#32 [(1, 1#32)]) 1 = some (0x10000#32, false, false) ∧
    zs (at10 0xE5010001#32 [(1, 0xFFFFFFFF#32)]) 1 = some (0#32, true, false) := by decide

/-- V-CI4 and V-CI6. -/
theorem test_cmp_imm16 :
    zs (at10 0x10010005#32 [(1, 0x80000005#32)]) 1 = some (0x80000005#32, false, true) ∧
    zs (at10 0x1001FFFF#32 [(1, 0xFFFFFFFF#32)]) 1 = some (0xFFFFFFFF#32, false, true) := by decide

/-- V-CR1 and V-CR4. -/
theorem test_cmp_registers :
    zs (at10 0x11010200#32 [(1, 7#32), (2, 9#32)]) 1 = some (7#32, false, true) ∧
    zs (at10 0x11010200#32 [(1, 0x80000000#32), (2, 1#32)]) 1 =
      some (0x80000000#32, false, false) := by decide

/-- `pc` after one jump to 0x20, for (Z, S) = (0,0), (1,0), (0,1), (1,1). -/
def jumps (op : Byte) : List (Option Word) :=
  [(false, false), (true, false), (false, true), (true, true)].map fun f =>
    (one (eng [(0x10, bytes op 0 0 0x20)] 0x10#32 256#32 f.1 f.2 [])).2.map State.pc

/-- V-J1 to V-J7. -/
theorem test_jumps :
    jumps 0x12 = [some 0x20#32, some 0x20#32, some 0x20#32, some 0x20#32] ∧
    jumps 0x13 = [some 0x11#32, some 0x20#32, some 0x11#32, some 0x20#32] ∧
    jumps 0x14 = [some 0x20#32, some 0x11#32, some 0x20#32, some 0x11#32] ∧
    jumps 0x15 = [some 0x11#32, some 0x11#32, some 0x20#32, some 0x20#32] ∧
    jumps 0x16 = [some 0x20#32, some 0x11#32, some 0x11#32, some 0x11#32] ∧
    jumps 0x17 = [some 0x11#32, some 0x20#32, some 0x20#32, some 0x20#32] ∧
    jumps 0x18 = [some 0x20#32, some 0x20#32, some 0x11#32, some 0x20#32] := by decide

/-- V-J9 and V-J10. -/
theorem test_jmp_target :
    seen (at10 0x12AB0020#32 []) 0 = (.ok, some (0#32, 0x20#32, 256#32)) ∧
    seen (at10 0x1200FFFF#32 []) 0 = (.ok, some (0#32, 0xFFFF#32, 256#32)) := by decide

/-- V-PU2 and V-PU3. -/
theorem test_push :
    memSeen (eng [(0x10, 0x32010000#32)] 0x10#32 1#32 false false [(1, 9#32)]) 0 =
      (.ok, some (9#32, 0x11#32, 0#32)) ∧
    memSeen (eng [(0, 4#32), (0x10, 0x32010000#32)] 0x10#32 0#32 false false [(1, 9#32)]) 0 =
      (.stackError .overflow, some (4#32, 0x11#32, 0#32)) := by decide

/-- V-PO3 and V-PO2. -/
theorem test_pop :
    seen (eng [(0, 0x33#32), (0x10, 0x33020000#32)] 0x10#32 0#32 false false []) 2 =
      (.ok, some (0x33#32, 0x11#32, 1#32)) ∧
    seen (at10 0x33020000#32 [(2, 5#32)]) 2 =
      (.stackError .underflow, some (5#32, 0x11#32, 256#32)) := by decide

/-- V-CA1 and V-CA2. -/
theorem test_call :
    memSeen (eng [(5, 0x3000000A#32)] 5#32 256#32 false false []) 255 =
      (.ok, some (6#32, 10#32, 255#32)) ∧
    memSeen (eng [(0, 4#32), (5, 0x3000000A#32)] 5#32 0#32 false false []) 0 =
      (.stackError .overflow, some (4#32, 6#32, 0#32)) := by decide

/-- V-RE3 and V-RE2. -/
theorem test_ret :
    memSeen (eng [(0x10, 0x31000000#32), (255, 0x12345#32)] 0x10#32 255#32 false false []) 255 =
      (.ok, some (0x12345#32, 0x12345#32, 256#32)) ∧
    memSeen (at10 0x31000000#32 []) 255 =
      (.stackError .underflow, some (0#32, 0x11#32, 256#32)) := by decide

/-- V-NP1, V-IN1 and V-OU1. -/
theorem test_nop_in_out :
    seen (eng [] 4#32 256#32 false false []) 1 = (.ok, some (0#32, 5#32, 256#32)) ∧
    seen (eng [(2, 0x40010000#32)] 2#32 256#32 false false [(1, 0x55#32)]) 1 =
      (.ok, some (0x55#32, 3#32, 256#32)) ∧
    seen (eng [(2, 0x41010000#32)] 2#32 256#32 false false [(1, 0x55#32)]) 1 =
      (.ok, some (0x55#32, 3#32, 256#32)) := by decide

/-- V-HL2 and V-HL3. -/
theorem test_hlt :
    (one (at10 0xFF123456#32 [])).1 = .halted ∧
    (one (at10 0xFF123456#32 [])).2.map (fun t => (t.halted, t.pc)) = some (true, 0x11#32) ∧
    one ((at10 0x02010001#32 []).halt) = (.halted, some (at10 0x02010001#32 []).halt) := by decide

/-- V-UN1 and V-UN2. -/
theorem test_unknown_opcode :
    (one (eng [(5, 0x0B000000#32)] 5#32 256#32 false false [])).1 = .unknownOpcode 0x0B#8 5#32 ∧
    (one (at10 0xE3FFFFFF#32 [])).2.map (fun t => (t.halted, t.pc)) = some (true, 0x11#32) := by decide

/-- V-ML5 and V-SI5. -/
theorem test_reserved :
    (one (at10 0xE2010000#32 [])).1 = .refused (.reservedEncoding 0xE2010000#32 0x10#32) ∧
    (one (at10 0xE4FFFF00#32 [])).1 = .refused (.reservedEncoding 0xE4FFFF00#32 0x10#32) := by decide

/-- V-FE1 and V-FE3. -/
theorem test_fetch_bounds :
    seen (eng [] 256#32 256#32 false false []) 0 =
      (.memoryAccessError 256#32, some (0#32, 256#32, 256#32)) ∧
    seen (eng [] 255#32 256#32 false false []) 0 = (.ok, some (0#32, 256#32, 256#32)) := by decide

/-! ### Reset, the host's operations and the assembler -/

/-- 10_state R40, with the zeros of decisions D2 and D3. -/
theorem test_reset :
    State.reset.sp = 256#32 ∧ State.reset.pc = 0#32 ∧ State.reset.halted = false ∧
    State.reset.flags = Flags.clear ∧ State.reset.reg 15 = 0#32 ∧ State.reset.mem.wf = true := by
  decide

/-- A word placed where `step` fetches is the instruction that runs. -/
theorem test_withFetchWord :
    seen (State.reset.withFetchWord 32 0x0201000A) 1 = (.ok, some (10#32, 1#32, 256#32)) ∧
    memSeen (State.reset.withFetchWord 96 0x0000000500000041E4FFFFFF) 0x41 =
      (.ok, some (5#32, 3#32, 256#32)) := by decide

/-- T8: a program of HLT alone. -/
theorem test_hlt_alone :
    (match State.reset.loadProgram [0xFF000000#32] 0#32 with
      | .next s => endsHalted 1 s
      | .fault _ | .refused _ => false) = true := by decide

/-- 40_step_cycle R114: a run on an engine that is halted from the start, by HLT or by an unknown
opcode, executes no HLT and is no successful run. -/
theorem test_halted_start_is_no_success :
    endsHalted 2 (at10 0xFF000000#32 []).halt = false ∧
    ((stateAfter (step (at10 0x0B000000#32 []))).map (endsHalted 2)) = some false ∧
    endsHalted 1 (at10 0xFF000000#32 []) = true ∧ endsHalted 2 (at10 0x0B000000#32 []) = false := by
  decide

/-- A launch of HLT alone at 0 on an engine of at least one word, with room for `k` stack words. -/
def hltLaunch (k : Nat) : Launch :=
  { minSize := 1, maxSize := 256, words := [0xFF000000#32], base := 0#32, sp := 256#32,
    stackWords := k, data := [], regs := [(1, 0#32)], zero := some false, sign := none }

/-- 70_reset_and_hazards R232: each premise can fail on its own. -/
theorem test_launch_premises :
    (eng [(0, 0xFF000000#32)] 0#32 256#32 false true []).launchOk (hltLaunch 255) = true ∧
    (eng [(0, 0xFF000000#32)] 0#32 256#32 false true []).launchOk (hltLaunch 256) = false ∧
    (eng [] 0#32 256#32 false true []).launchOk (hltLaunch 1) = false ∧
    (eng [(0, 0xFF000000#32)] 1#32 256#32 false true []).launchOk (hltLaunch 1) = false ∧
    (eng [(0, 0xFF000000#32)] 0#32 255#32 false true []).launchOk (hltLaunch 1) = false ∧
    (eng [(0, 0xFF000000#32)] 0#32 256#32 true true []).launchOk (hltLaunch 1) = false ∧
    (eng [(0, 0xFF000000#32)] 0#32 256#32 false true [(1, 1#32)]).launchOk (hltLaunch 1) = false ∧
    (eng [(0, 0xFF000000#32)] 0#32 256#32 false true []).halt.launchOk (hltLaunch 1) = false := by
  decide

/-- The packed flags: ZERO is bit 1, SIGN bit 3 (10_state R32). -/
theorem test_snapshot_flags :
    (eng [] 0#32 256#32 true true []).snapshot.flags = 0x0A#8 ∧
    (eng [] 0#32 256#32 true true []).snapshot.flagNames = [.zero, .sign] := by decide

/-- V-ASM: operand shapes. -/
theorem test_assemble_shapes :
    Asm.assemble [.instr .mov [.reg 1, .lit 0xFFFF]] = some [0x0201FFFF#32] ∧
    Asm.assemble [.instr .mov [.reg 1, .lit 0x10000]] = some [0xE20100FF#32, 0x10000#32] ∧
    Asm.assemble [.instr .store [.reg 2, .reg 1]] = some [0x04010200#32] ∧
    Asm.assemble [.instr .store [.lit 0x41, .lit 0xDEADBEEF]] =
      some [0xE4FFFFFF#32, 0x41#32, 0xDEADBEEF#32] ∧
    Asm.assemble [.instr .mov [.reg 16, .lit 1]] = none ∧
    Asm.assemble [.instr .mov [.reg 1, .lit 0x100000000]] = none := by decide

/-- V-ASM: labels are emitted-word addresses, and one missing label fails the whole unit (T7);
last, the model's choice on a register-shaped target (log 27). -/
theorem test_assemble_labels :
    Asm.assemble [.label ['s'], .instr .mov [.reg 1, .lit 0x12345678], .label ['l'],
      .instr .jmp [.label ['l']]] = some [0xE20100FF#32, 0x12345678#32, 0x12000002#32] ∧
    Asm.assemble [.instr .mov [.reg 1, .lit 1], .instr .jmp [.label ['n']]] = none ∧
    Asm.assemble [.label ['r', '1'], .instr .jmp [.reg 1]] = none := by decide

/-! ### Witnesses: hypotheses of the obligations, met at boundary values -/

/-- An outcome is a next state. -/
def isNext : Host.Outcome State Fault Refusal → Bool
  | .next _ => true
  | .fault _ | .refused _ => false

/-- A fault that is not the soft halt of an unknown opcode. -/
def isError : Host.Outcome State Fault Refusal → Bool
  | .fault (.memoryAccessError _ _) | .fault (.stackError _ _) => true
  | .next _ | .fault (.unknownOpcode _ _ _) | .refused _ => false

/-- The executable form of `State.Fetches`. -/
def fetches (s : State) (w : Word) : Bool :=
  !s.halted && (match s.memRead s.pc with
    | .ok v => v == w
    | .error _ => false)

theorem fetches_iff (s : State) (w : Word) : s.Fetches w ↔ fetches s w = true := by
  unfold State.Fetches fetches
  cases s.memRead s.pc <;> simp

/-- The last word of memory and one before it hold the two literal forms. -/
def edge (w : Word) (a : Word) : State := eng [(a.toNat, w)] a 256#32 false false []

theorem witness_EncodeOfDecodeClearsIgnoredBits :
    decode [0xE2FFABFF#32, 7#32, 8#32] = .instr (.movI32 15 7) [8#32] ∧
    decode [0x0AFFFFFF#32] = .instr (.not 15) [] := by decide

theorem witness_IgnoredBitsDoNotChangeDecoding :
    canonicalise 0x01F3A1FF#32 = canonicalise 0x01030100#32 := by decide

theorem witness_UnknownExactlyInTheOpcodeGaps :
    decodeHeader 0x0BFFFFFF#32 = .unknown 0x0B#8 ∧ decodeHeader 0xFE000000#32 = .unknown 0xFE#8 := by
  decide

theorem witness_ReservedExactlyWithoutSentinel :
    decodeHeader 0xE2FFFFFE#32 = .reserved ∧ decodeHeader 0xE4FFFFFE#32 = .reserved := by decide

/-- One word, two words ending memory, and three words ending memory. -/
theorem witness_StepRunsTheDecodedInstruction :
    ∀ p ∈ [(at10 0x0201000A#32 [], Instr.movI16 1 10),
      (eng [(254, 0xE20100FF#32), (255, 3#32)] 254#32 256#32 false false [], .movI32 1 3),
      (eng [(253, 0xE4FFFFFF#32), (254, 3#32)] 253#32 256#32 false false [], .storeI32 3 0)],
      p.1.halted = false ∧ ∃ rest ∈ [[], [0#32, 0#32]],
        decode (p.1.wordsAt p.1.pc 3) = .instr p.2 rest := by decide

theorem witness_HaltedStepChangesNothing : (at10 0#32 []).halt.halted = true := by decide

theorem witness_FetchOutsideMemoryRaises :
    ∀ a ∈ [256, 0xFFFFFFFF], (edge 0#32 (.ofNat 32 a)).halted = false ∧
      (edge 0#32 (.ofNat 32 a)).memSize.toNat ≤ (edge 0#32 (.ofNat 32 a)).pc.toNat := by decide

theorem witness_LiteralOutsideMemoryRaises :
    (edge 0xE20100FF#32 255#32).Fetches 0xE20100FF#32 ∧
    (edge 0xE4FFFFFF#32 255#32).Fetches 0xE4FFFFFF#32 ∧
    (edge 0xE4FFFFFF#32 254#32).Fetches 0xE4FFFFFF#32 ∧
    decodeHeader 0xE20100FF#32 = .needsLiteral 1 ∧
    decodeHeader 0xE4FFFFFF#32 = .needsTwoLiterals := by
  simp only [fetches_iff]; decide

theorem witness_UnknownOpcodeHaltsSoftly :
    (at10 0xE3FFFFFF#32 []).Fetches 0xE3FFFFFF#32 ∧ formatOf (opcodeOf 0xE3FFFFFF#32) = none := by
  simp only [fetches_iff]; decide

theorem witness_ReservedWordIsRefused :
    (at10 0xE2010000#32 []).Fetches 0xE2010000#32 ∧ decodeHeader 0xE2010000#32 = .reserved ∧
    (at10 0xE4000000#32 []).Fetches 0xE4000000#32 ∧ decodeHeader 0xE4000000#32 = .reserved := by
  simp only [fetches_iff]; decide

/-- Every case: a plain word, the literal forms, each jump with ZERO and SIGN as listed, CALL, RET. -/
theorem witness_ProgramCounterAfterEachInstruction :
    ∀ w ∈ [0x0201000A, 0xE20100FF, 0xE4FFFFFF, 0x12000020, 0x13000020, 0x14000020, 0x15000020,
        0x16000020, 0x17000020, 0x18000020, 0x30000020, 0x31000000],
      ∀ f ∈ [(false, false), (true, false), (false, true)],
      isNext (step (eng [(0x10, .ofNat 32 w)] 0x10#32 255#32 f.1 f.2 [])) = true := by decide

theorem witness_MovRegisterStep :
    (at10 0x01F3A1FF#32 []).Fetches 0x01F3A1FF#32 ∧
    (0x01F3A1FF#32 : Word).extractLsb' 24 8 = 0x01#8 := by
  simp only [fetches_iff]; decide

/-- The last word of memory, and the first address beyond it. -/
theorem witness_LoadStep :
    ∀ a ∈ [255, 256, 0xFFFFFFFF],
      (at10 0x03020100#32 [(1, .ofNat 32 a)]).Fetches 0x03020100#32 ∧
      (0x03020100#32 : Word).extractLsb' 24 8 = 0x03#8 ∧
      ((at10 0x03020100#32 [(1, .ofNat 32 a)]).reg ((0x03020100#32 : Word).extractLsb' 8 4) <
        (at10 0x03020100#32 [(1, .ofNat 32 a)]).memSize ↔ a = 255) := by
  simp only [fetches_iff]; decide

theorem witness_StoreStep :
    ∀ a ∈ [255, 256, 0xFFFFFFFF],
      (at10 0x04020100#32 [(1, .ofNat 32 a)]).Fetches 0x04020100#32 ∧
      (0x04020100#32 : Word).extractLsb' 24 8 = 0x04#8 ∧
      ((at10 0x04020100#32 [(1, .ofNat 32 a)]).reg ((0x04020100#32 : Word).extractLsb' 8 4) <
        (at10 0x04020100#32 [(1, .ofNat 32 a)]).memSize ↔ a = 255) := by
  simp only [fetches_iff]; decide

/-- `sp` at its top, one above the bottom, and at the bottom. -/
theorem witness_PushStep :
    ∀ a ∈ [256, 1, 0],
      (eng [(0x10, 0x32010000#32)] 0x10#32 (.ofNat 32 a) false false []).spOk = true ∧
      (eng [(0x10, 0x32010000#32)] 0x10#32 (.ofNat 32 a) false false []).Fetches 0x32010000#32 ∧
      (0x32010000#32 : Word).extractLsb' 24 8 = 0x32#8 := by
  simp only [fetches_iff]; decide

/-- `sp` at the bottom, one below the top, and at the top. -/
theorem witness_PopStep :
    ∀ a ∈ [0, 255, 256],
      (eng [(0x10, 0x33020000#32)] 0x10#32 (.ofNat 32 a) false false []).Fetches 0x33020000#32 ∧
      (0x33020000#32 : Word).extractLsb' 24 8 = 0x33#8 ∧
      (BitVec.ofNat 32 a < (eng [(0x10, 0x33020000#32)] 0x10#32 (.ofNat 32 a) false false []).memSize ↔
        a ≠ 256) := by
  simp only [fetches_iff]; decide

theorem witness_NopInOutStep :
    ∀ p ∈ [(0x00ABCDEF, 0x00#8), (0x40010000, 0x40#8), (0x41010000, 0x41#8)],
      (at10 (.ofNat 32 p.1) []).Fetches (.ofNat 32 p.1) ∧
      (BitVec.ofNat 32 p.1).extractLsb' 24 8 = p.2 := by
  simp only [fetches_iff]; decide

theorem witness_HltStep :
    (at10 0xFF123456#32 []).Fetches 0xFF123456#32 ∧
    (0xFF123456#32 : Word).extractLsb' 24 8 = 0xFF#8 := by
  simp only [fetches_iff]; decide

theorem witness_RegisterCells : (2 : Reg) ≠ 15 := by decide

/-- Each of the four values of ZERO and SIGN occurs. -/
theorem witness_JumpsTakenWhen :
    ∀ f ∈ [(false, false), (true, false), (false, true), (true, true)],
      (eng [] 0#32 256#32 f.1 f.2 []).flags.zero = f.1 ∧
      (eng [] 0#32 256#32 f.1 f.2 []).flags.sign = f.2 := by decide

/-- A step of HLT, of NOP, of an absent opcode and of a bad load; a load into a halted engine. -/
theorem witness_HaltedBitRules :
    (stateAfter (step (at10 0xFF000000#32 []))).map State.halted = some true ∧
    (stateAfter (step (at10 0#32 []))).map State.halted = some false ∧
    (stateAfter (step (at10 0x0B000000#32 []))).map State.halted = some true ∧
    (stateAfter (step (at10 0x03020100#32 [(1, 256#32)]))).map State.halted = some false ∧
    isNext ((at10 0#32 []).halt.loadProgram [7#32] 255#32) = true := by decide

theorem witness_LoadCompletes :
    (at10 0#32 [(1, 255#32)]).reg 1 < (at10 0#32 []).memSize := by decide

theorem witness_StoresComplete :
    (at10 0#32 [(1, 255#32)]).reg 1 < (at10 0#32 []).memSize ∧
    (255#32 : Word) < (at10 0#32 []).memSize := by decide

theorem witness_PushAndCallComplete :
    ∀ a ∈ [1, 256], (eng [] 0#32 (.ofNat 32 a) false false []).sp ≠ 0#32 ∧
      (eng [] 0#32 (.ofNat 32 a) false false []).spOk = true := by decide

theorem witness_PopAndRetComplete :
    ∀ a ∈ [0, 255],
      (eng [] 0#32 (.ofNat 32 a) false false []).sp < (eng [] 0#32 (.ofNat 32 a) false false []).memSize := by decide

/-- Each case of the faults at its boundary, in a state with `0 <= sp <= MEM_SIZE`. -/
theorem witness_FaultsOfEachInstruction :
    ∀ p ∈ [(Instr.load 2 1, 0#32), (.store 2 1, 0#32), (.storeI32 256 5, 0#32), (.push 1, 0#32),
        (.call 7, 0#32), (.pop 1, 256#32), (.ret, 256#32)],
      (eng [] 0#32 p.2 false false [(1, 256#32)]).spOk = true ∧
      isError (exec p.1 (eng [] 0#32 p.2 false false [(1, 256#32)])) = true := by decide

/-- One instruction of every case of the whole-machine rules answers a next state, both flags set. -/
theorem witness_OnlyRules :
    ∀ i ∈ [Instr.nop, .movRR 1 2, .movI16 1 2, .load 1 2, .store 1 2, .add 1 2, .sub 1 2, .and 1 2,
        .or 1 2, .xor 1 2, .not 1, .cmpI16 1 2, .cmpRR 1 2, .jmp 2, .jz 2, .jnz 2, .jl 2, .jg 2,
        .jle 2, .jge 2, .call 2, .ret, .push 1, .pop 1, .inp 1, .out 1, .movI32 1 2, .storeI32 255 2,
        .addI16 1 2, .hlt],
      isNext (exec i (eng [] 0x10#32 255#32 true true [(2, 255#32)])) = true := by decide

theorem witness_OnlyTheDestinationRegisterChanges :
    ∀ p ∈ [(Instr.movRR 1 2, (2 : Reg)), (.push 1, 1)],
      isNext (exec p.1 (at10 0#32 [])) = true ∧ p.1.dest ≠ some p.2 := by decide

theorem witness_OnlyConditionalJumpsReadFlags :
    (Instr.jmp 2).readsFlags = false ∧ (Instr.jge 2).readsFlags = true ∧
    (at10 0#32 []).flags.zero = (Flags.mk true false true false true true).zero ∧
    (at10 0#32 []).flags.sign = (Flags.mk true false true false true true).sign := by decide

/-- Errors that leave `pc` at A, A + 1 and A + 3 (V-SI3, V-LD4, V-SI2). -/
theorem witness_ErrorsLeaveAllButPc :
    ∀ s ∈ [eng [(254, 0xE4FFFFFF#32), (255, 1#32)] 254#32 256#32 false false [],
        at10 0x03020100#32 [(1, 0xFFFFFFFF#32)],
        eng [(0x10, 0xE4FFFFFF#32), (0x11, 0x100#32), (0x12, 5#32)] 0x10#32 256#32 false false []],
      s.spOk = true ∧ isError (step s) = true := by decide

theorem witness_MemoryPrimitives :
    (255#32 : Word) < (at10 0#32 []).memSize ∧ (at10 0#32 []).memSize ≤ 256#32 ∧
    (0#32 : Word) ≠ 255#32 ∧ (0#32 : Word) < (at10 0#32 []).memSize := by decide

/-- V-CR1: the difference fits; V-CR4 and V-CR5: it does not. -/
theorem witness_CompareFlagsReadAsSigned :
    isNext (exec (.cmpRR 1 2) (at10 0#32 [(1, 7#32), (2, 9#32)])) = true ∧
    -(2 ^ 31) ≤ (7#32).toInt - (9#32).toInt ∧ (7#32).toInt - (9#32).toInt < 2 ^ 31 ∧
    ¬ -(2 ^ 31) ≤ (0x80000000#32).toInt - (1#32).toInt ∧
    ¬ (0x7FFFFFFF#32).toInt - (0xFFFFFFFF#32).toInt < 2 ^ 31 := by decide

theorem witness_JumpConditionsRelated :
    (Flags.mk false true false false false false).zsOk = true ∧
    (Flags.mk false true false true false false).zsOk = false := by decide

theorem witness_StackIsLastInFirstOut :
    (eng [] 0#32 2#32 false false []).spOk = true ∧ 2 ≤ (eng [] 0#32 2#32 false false []).sp.toNat ∧
    (3 : Reg) ≠ 4 := by decide

/-- CALL from 5, then the state at the RET of program P2. -/
theorem witness_RetReturnsAfterCall :
    exec (.call 10) (eng [] 6#32 256#32 false false []) =
      .next (eng [(255, 6#32)] 10#32 255#32 false false []) ∧
    (eng [(255, 6#32)] 13#32 255#32 false false [(4, 7#32)]).sp = 255#32 ∧
    (eng [(255, 6#32)] 13#32 255#32 false false [(4, 7#32)]).memSize = 256#32 ∧
    (eng [(255, 6#32)] 13#32 255#32 false false [(4, 7#32)]).mem.read 255 = 6#32 := by
  refine ⟨rfl, ?_⟩; decide

/-- V-ST4: the store lands on the next word to be fetched. -/
theorem witness_StoredWordIsFetched :
    exec (.store 1 2) (eng [] 0x11#32 256#32 false false [(1, 0xFF000000#32), (2, 0x11#32)]) =
      .next (eng [(0x11, 0xFF000000#32)] 0x11#32 256#32 false false
        [(1, 0xFF000000#32), (2, 0x11#32)]) ∧
    (eng [(0x11, 0xFF000000#32)] 0x11#32 256#32 false false
      [(1, 0xFF000000#32), (2, 0x11#32)]).reg 2 = 0x11#32 := by
  refine ⟨rfl, ?_⟩; decide

/-- HLT as the first step, and after one NOP. -/
theorem witness_SuccessfulRunsEndByHlt :
    run 0 (eng [(0, 0xFF000000#32)] 0#32 256#32 false false []) =
      (.unfinished, eng [(0, 0xFF000000#32)] 0#32 256#32 false false []) ∧
    run 1 (eng [(1, 0xFF000000#32)] 0#32 256#32 false false []) =
      (.unfinished, eng [(1, 0xFF000000#32)] 1#32 256#32 false false []) ∧
    (eng [(0, 0xFF000000#32)] 0#32 256#32 false false []).Fetches 0xFF000000#32 ∧
    (eng [(1, 0xFF000000#32)] 1#32 256#32 false false []).Fetches 0xFF000000#32 ∧
    opcodeOf 0xFF000000#32 = 0xFF#8 := by
  simp only [fetches_iff]; decide

/-- States with the invariant that step to a next state and to a fault. -/
theorem witness_StepKeepsTheInvariant :
    (at10 0x32010000#32 []).Inv = true ∧ isNext (step (at10 0x32010000#32 [])) = true ∧
    (at10 0x33010000#32 []).Inv = true ∧ isError (step (at10 0x33010000#32 [])) = true := by decide

/-- Reset is reachable, and so is the state an error leaves there after MEM_SIZE = 0. -/
theorem witness_ReachableStatesMeetTheInvariant :
    Reachable State.reset ∧ Reachable (State.construct 0#32) ∧
    step (State.construct 0#32) = .fault (.memoryAccessError 0#32 (State.construct 0#32)) :=
  ⟨.construct _, .construct _, rfl⟩

theorem witness_MemorySizeIsFixed :
    isNext (step State.reset) = true ∧ isError (step (State.construct 0#32)) = true := by decide

/-- Three words that end memory. -/
theorem witness_FetchNeverWraps :
    (eng [(253, 0xE4FFFFFF#32), (254, 3#32)] 253#32 256#32 false false []).fetch =
      .run (.storeI32 3 0) (eng [(253, 0xE4FFFFFF#32), (254, 3#32)] 256#32 256#32 false false []) := by
  decide

theorem witness_StateAfterReset : (255#32 : Word) < 256#32 := by decide

/-- A load that ends at the last word, and the load of nothing at MEM_SIZE. -/
theorem witness_LoadProgramWritesTheWords :
    (254#32 : Word).toNat + [7#32, 8#32].length ≤ State.reset.memSize.toNat ∧
    (256#32 : Word).toNat + ([] : List Word).length ≤ State.reset.memSize.toNat := by decide

theorem witness_LoadThatDoesNotFitIsRefused :
    State.reset.memSize.toNat < (255#32 : Word).toNat + [7#32, 8#32].length ∧
    State.reset.memSize.toNat < (257#32 : Word).toNat + ([] : List Word).length := by decide

theorem witness_SnapshotRangeReadsMemory :
    (254#32 : Word).toNat + 2 ≤ State.reset.memSize.toNat ∧
    State.reset.memSize.toNat < (254#32 : Word).toNat + 3 := by decide

end Sys2Proof.Tests
end

/-! PROOFS. The register file as cells (10_state R22) and what reads and writes the flags
(10_state R34, R35). -/

namespace Sys2Proof.Machine

/-! ### Register cells (10_state R22) -/

theorem State.setReg_comm (s : State) {d r : Reg} (v u : Word) (h : r ≠ d) :
    (s.setReg d v).setReg r u = (s.setReg r u).setReg d v := by
  have hne : d.toNat ≠ r.toNat := fun e => h (BitVec.eq_of_toNat_eq e.symm)
  simp [State.setReg, Vector.set_comm _ _ hne]

@[simp] theorem State.setReg_setReg_self (s : State) (d : Reg) (u v : Word) :
    (s.setReg d u).setReg d v = s.setReg d v := by
  simp [State.setReg]

@[simp] theorem State.setReg_reg_eq_self (s : State) (d : Reg) : s.setReg d (s.reg d) = s := by
  simp [State.setReg, State.reg]

/-- Settles O31: the reads and the frame are the laws of `State.setReg`, and the algebra of the
writes is that of `Vector.set`. -/
theorem registerCells : Obligations.RegisterCells := fun s d v =>
  ⟨s.setReg_reg_self d v, fun _ hr => s.setReg_reg_ne v hr, rfl, rfl, rfl, rfl, rfl, rfl,
    fun _ hr u => s.setReg_comm v u hr, fun u => s.setReg_setReg_self d u v, s.setReg_reg_eq_self d⟩

/-! ### The shared operations under other flags

Each answers as before, with the flags replaced in whatever state it answers or leaves. -/

@[simp] theorem State.withFlags_pc (s : State) (f : Flags) : (s.withFlags f).pc = s.pc := rfl

@[simp] theorem State.withFlags_halted (s : State) (f : Flags) :
    (s.withFlags f).halted = s.halted := rfl

@[simp] theorem State.withFlags_reg (s : State) (f : Flags) (r : Reg) :
    (s.withFlags f).reg r = s.reg r := rfl

@[simp] theorem State.withFlags_setPc (s : State) (f : Flags) (t : Word) :
    (s.withFlags f).setPc t = (s.setPc t).withFlags f := rfl

theorem State.memRead_withFlags (s : State) (f : Flags) (a : Word) :
    (s.withFlags f).memRead a = (s.memRead a).mapError (Fault.mapLeft (·.withFlags f)) := by
  by_cases h : a < s.memSize
  · rw [(s.memRead_eq_ok a _).mpr ⟨h, rfl⟩]
    exact (State.memRead_eq_ok _ a _).mpr ⟨h, rfl⟩
  · rw [(s.memRead_eq_error a _).mpr ⟨h, rfl⟩]
    exact (State.memRead_eq_error _ a _).mpr ⟨h, rfl⟩

theorem State.memWrite_withFlags (s : State) (f : Flags) (a v : Word) :
    (s.withFlags f).memWrite a v =
      ((s.memWrite a v).map (·.withFlags f)).mapError (Fault.mapLeft (·.withFlags f)) := by
  by_cases h : a < s.memSize
  · rw [(s.memWrite_eq_ok _ a v).mpr ⟨h, rfl⟩]
    exact (State.memWrite_eq_ok _ _ a v).mpr ⟨h, rfl⟩
  · rw [(s.memWrite_eq_error a v _).mpr ⟨h, rfl⟩]
    exact (State.memWrite_eq_error _ a v _).mpr ⟨h, rfl⟩

theorem State.push_withFlags (s : State) (f : Flags) (v : Word) :
    (s.withFlags f).push v =
      ((s.push v).map (·.withFlags f)).mapError (Fault.mapLeft (·.withFlags f)) := by
  unfold State.push
  by_cases h : s.sp = 0#32
  · rw [if_pos h]
    exact if_pos h
  · rw [if_neg h, ← State.memWrite_withFlags]
    exact if_neg h

theorem State.pop_withFlags (s : State) (f : Flags) :
    (s.withFlags f).pop =
      (s.pop.map (Prod.map id (·.withFlags f))).mapError (Fault.mapLeft (·.withFlags f)) := by
  by_cases h : s.sp < s.memSize
  · rw [(s.pop_eq_ok _ _).mpr ⟨h, rfl, rfl⟩]
    exact (State.pop_eq_ok _ _ _).mpr ⟨h, rfl, rfl⟩
  · rw [(s.pop_eq_error _).mpr ⟨h, rfl⟩]
    exact (State.pop_eq_error _ _).mpr ⟨h, rfl⟩

theorem State.jumpIf_withFlags (s : State) (f : Flags) (b : Bool) (x : Half) :
    (s.withFlags f).jumpIf b x = (s.jumpIf b x).withFlags f := by
  cases b <;> rfl

/-- A condition depends on ZERO and SIGN alone (43_compare_branch R154). -/
theorem Cond.holds_congr (c : Cond) {f g : Flags} (hz : f.zero = g.zero) (hs : f.sign = g.sign) :
    c.holds f = c.holds g := by
  cases c <;> simp [Cond.holds, hz, hs]

/-- A conditional jump under flags with the same ZERO and SIGN is taken or not taken alike. -/
theorem State.condJump_withFlags (s : State) (c : Cond) (x : Half) {f : Flags}
    (hf : f.zero = s.flags.zero ∧ f.sign = s.flags.sign) :
    (s.withFlags f).jumpIf (c.holds f) x = (s.jumpIf (c.holds s.flags) x).withFlags f := by
  rw [c.holds_congr hf.1 hf.2, s.jumpIf_withFlags]

/-! ### Handlers and steps under other flags -/

/-- The flags after an instruction that records a result in them, or none (42_alu R132). -/
def Flags.record (f : Flags) : Option Word → Flags
  | none => f
  | some res => f.setZS res

/-- What a handler does under other flags, once for all instructions: it records the same result
(the conditional jumps none) in the flags it is given and does all else alike, provided that a
conditional jump is given the same ZERO and SIGN. -/
theorem exec_withFlags (i : Instr) (s : State) :
    ∃ res : Option Word, (i.readsFlags = true → res = none) ∧
      ∀ f : Flags, (i.readsFlags = true → f.zero = s.flags.zero ∧ f.sign = s.flags.sign) →
        exec i (s.withFlags f) = mapOutcome (·.withFlags (f.record res)) (exec i s) := by
  cases i with
  | nop | inp _ | out _ | hlt | movRR _ _ | movI16 _ _ | movI32 _ _ | jmp _ =>
    exact ⟨none, fun _ => rfl, fun _ _ => rfl⟩
  | add d r => exact ⟨some (s.reg d + s.reg r), nofun, fun _ _ => rfl⟩
  | sub d r => exact ⟨some (s.reg d - s.reg r), nofun, fun _ _ => rfl⟩
  | and d r => exact ⟨some (s.reg d &&& s.reg r), nofun, fun _ _ => rfl⟩
  | or d r => exact ⟨some (s.reg d ||| s.reg r), nofun, fun _ _ => rfl⟩
  | xor d r => exact ⟨some (s.reg d ^^^ s.reg r), nofun, fun _ _ => rfl⟩
  | not d => exact ⟨some (~~~ s.reg d), nofun, fun _ _ => rfl⟩
  | addI16 d k => exact ⟨some (s.reg d + zext32 k), nofun, fun _ _ => rfl⟩
  | cmpI16 r k => exact ⟨some (s.reg r - zext32 k), nofun, fun _ _ => rfl⟩
  | cmpRR r q => exact ⟨some (s.reg r - s.reg q), nofun, fun _ _ => rfl⟩
  | jz x => exact ⟨none, fun _ => rfl, fun _ h => congrArg _ (s.condJump_withFlags .z x (h rfl))⟩
  | jnz x => exact ⟨none, fun _ => rfl, fun _ h => congrArg _ (s.condJump_withFlags .nz x (h rfl))⟩
  | jl x => exact ⟨none, fun _ => rfl, fun _ h => congrArg _ (s.condJump_withFlags .l x (h rfl))⟩
  | jg x => exact ⟨none, fun _ => rfl, fun _ h => congrArg _ (s.condJump_withFlags .g x (h rfl))⟩
  | jle x => exact ⟨none, fun _ => rfl, fun _ h => congrArg _ (s.condJump_withFlags .le x (h rfl))⟩
  | jge x => exact ⟨none, fun _ => rfl, fun _ h => congrArg _ (s.condJump_withFlags .ge x (h rfl))⟩
  | load d a =>
    refine ⟨none, nofun, fun f _ => ?_⟩
    simp only [exec, execLoad, State.withFlags_reg, State.memRead_withFlags]
    cases s.memRead (s.reg a) <;> rfl
  | store v a =>
    refine ⟨none, nofun, fun f _ => ?_⟩
    simp only [exec, execStore, State.withFlags_reg, State.memWrite_withFlags]
    cases s.memWrite (s.reg a) (s.reg v) <;> rfl
  | storeI32 a v =>
    refine ⟨none, nofun, fun f _ => ?_⟩
    simp only [exec, execStoreI32, State.memWrite_withFlags]
    cases s.memWrite a v <;> rfl
  | push r =>
    refine ⟨none, nofun, fun f _ => ?_⟩
    simp only [exec, execPush, State.withFlags_reg, State.push_withFlags]
    cases s.push (s.reg r) <;> rfl
  | call x =>
    refine ⟨none, nofun, fun f _ => ?_⟩
    simp only [exec, execCall, State.withFlags_pc, State.push_withFlags]
    cases s.push s.pc <;> rfl
  | pop r =>
    refine ⟨none, nofun, fun f _ => ?_⟩
    simp only [exec, execPop, State.pop_withFlags]
    cases s.pop <;> rfl
  | ret =>
    refine ⟨none, nofun, fun f _ => ?_⟩
    simp only [exec, execRet, State.pop_withFlags]
    cases s.pop <;> rfl

theorem mapOutcome_mapOutcome (g h : State → State) (o : Host.Outcome State Fault Refusal) :
    mapOutcome g (mapOutcome h o) = mapOutcome (fun t => g (h t)) o := by
  cases o with
  | next t => rfl
  | fault r => cases r <;> rfl
  | refused r => rfl

/-- Settles O37: the outcome is that under the old flags but for the flags (`exec_withFlags`), and
replacing them again hides that; a conditional jump records nothing. -/
theorem onlyConditionalJumpsReadFlags : Obligations.OnlyConditionalJumpsReadFlags := by
  intro i s f
  obtain ⟨res, hnone, hexec⟩ := exec_withFlags i s
  constructor
  · intro hr g
    rw [hexec f (by simp [hr]), mapOutcome_mapOutcome]
    rfl
  · intro hr hz hs
    obtain rfl := hnone hr
    exact hexec f fun _ => ⟨hz, hs⟩

/-- What a step finds, with every state in it replaced. -/
def Fetched.mapState (g : State → State) : Fetched → Fetched
  | .halted => .halted
  | .run i t => .run i (g t)
  | .stop f => .stop (f.mapLeft g)
  | .reserved w a => .reserved w a

theorem State.fetchLiteral_withFlags (s : State) (f : Flags) (d : Reg) :
    (s.withFlags f).fetchLiteral d = (s.fetchLiteral d).mapState (·.withFlags f) := by
  simp only [State.fetchLiteral, State.withFlags_pc, State.withFlags_setPc,
    State.memRead_withFlags]
  cases (s.setPc (s.pc + 1#32)).memRead (s.pc + 1#32) <;> rfl

theorem State.fetchTwoLiterals_withFlags (s : State) (f : Flags) :
    (s.withFlags f).fetchTwoLiterals = s.fetchTwoLiterals.mapState (·.withFlags f) := by
  simp only [State.fetchTwoLiterals, State.withFlags_pc, State.withFlags_setPc,
    State.memRead_withFlags]
  cases s.memRead (s.pc + 1#32) with
  | error e => rfl
  | ok a => cases s.memRead (s.pc + 2#32) <;> rfl

theorem State.fetchRest_withFlags (s : State) (f : Flags) (w : Word) :
    (s.withFlags f).fetchRest w = (s.fetchRest w).mapState (·.withFlags f) := by
  unfold State.fetchRest
  cases decodeHeader w with
  | complete i => rfl
  | needsLiteral d => exact s.fetchLiteral_withFlags f d
  | needsTwoLiterals => exact s.fetchTwoLiterals_withFlags f
  | unknown op => rfl
  | reserved => rfl

/-- A fetch neither reads nor writes a flag (40_step_cycle R101 to R104). -/
theorem State.fetch_withFlags (s : State) (f : Flags) :
    (s.withFlags f).fetch = s.fetch.mapState (·.withFlags f) := by
  simp only [State.fetch, State.withFlags_halted, State.withFlags_pc, State.memRead_withFlags]
  by_cases h : s.halted = true
  · rw [if_pos h, if_pos h]
    rfl
  · rw [if_neg h, if_neg h]
    cases s.memRead s.pc with
    | error e => rfl
    | ok w => exact s.fetchRest_withFlags f w

/-- What a step does under other flags with the same ZERO and SIGN: it records the same result, if
any, in the flags it is given and does all else alike. -/
theorem step_withFlags (s : State) :
    ∃ res : Option Word, ∀ f : Flags, f.zero = s.flags.zero → f.sign = s.flags.sign →
      step (s.withFlags f) = mapOutcome (·.withFlags (f.record res)) (step s) := by
  simp only [step, State.fetch_withFlags]
  cases hf : s.fetch with
  | halted => exact ⟨none, fun _ _ _ => rfl⟩
  | stop e => exact ⟨none, fun _ _ _ => rfl⟩
  | reserved w a => exact ⟨none, fun _ _ _ => rfl⟩
  | run i t =>
    obtain ⟨-, -, rfl, -⟩ := s.fetch_run t i hf
    obtain ⟨res, -, hexec⟩ := exec_withFlags i (s.setPc (s.pc + BitVec.ofNat 32 i.words))
    exact ⟨res, fun f hz hs => hexec f fun _ => ⟨hz, hs⟩⟩

/-! ### The inert flags (10_state R34) -/

/-- A step commutes with replacing the four inert flags: recording a result in the replaced flags is
replacing them after recording it. -/
theorem step_withInert (s : State) (c i o p : Bool) :
    step (s.withInert c i o p) = mapOutcome (·.withInert c i o p) (step s) := by
  obtain ⟨res, hstep⟩ := step_withFlags s
  have hself : step s = mapOutcome (·.withFlags (s.flags.record res)) (step s) :=
    hstep s.flags rfl rfl
  calc step (s.withInert c i o p)
      = mapOutcome (·.withFlags (Flags.record ⟨c, s.flags.zero, i, s.flags.sign, o, p⟩ res))
          (step s) := hstep _ rfl rfl
    _ = mapOutcome (·.withInert c i o p)
          (mapOutcome (·.withFlags (s.flags.record res)) (step s)) := by
        rw [mapOutcome_mapOutcome]
        cases res <;> rfl
    _ = mapOutcome (·.withInert c i o p) (step s) := by rw [← hself]

theorem State.withInert_inertClear (s : State) :
    (s.withInert false false false false).flags.inertClear = true := rfl

/-- The inert flags are 0 exactly where putting 0 into them changes nothing. -/
theorem State.withInert_eq_self_iff (s : State) :
    s.withInert false false false false = s ↔ s.flags.inertClear = true := by
  constructor
  · intro h
    rw [← h]
    exact s.withInert_inertClear
  · obtain ⟨regs, pc, sp, ⟨c, z, i, n, o, p⟩, halted, mem, size⟩ := s
    intro h
    obtain ⟨⟨⟨rfl, rfl⟩, rfl⟩, rfl⟩ : ((c = false ∧ o = false) ∧ p = false) ∧ i = false := by
      simpa [Flags.inertClear] using h
    rfl

/-- With the inert flags 0 before a step, putting 0 into them after it changes nothing. -/
theorem step_of_inertClear (s : State) (h : s.flags.inertClear = true) :
    mapOutcome (·.withInert false false false false) (step s) = step s := by
  rw [← step_withInert, s.withInert_eq_self_iff.mpr h]

theorem step_next_inertClear {s t : State} (h : s.flags.inertClear = true)
    (hs : step s = .next t) : t.flags.inertClear = true := by
  have ht := step_of_inertClear s h
  rw [hs] at ht
  exact t.withInert_eq_self_iff.mp (Host.Outcome.next.inj ht)

theorem Fault.left_mapLeft (f : Fault) (g : State → State) : (f.mapLeft g).left = g f.left := by
  cases f <;> rfl

theorem step_fault_inertClear {s : State} {f : Fault} (h : s.flags.inertClear = true)
    (hs : step s = .fault f) : f.left.flags.inertClear = true := by
  have hf := step_of_inertClear s h
  rw [hs] at hf
  refine f.left.withInert_eq_self_iff.mp ?_
  rw [← f.left_mapLeft (·.withInert false false false false), Host.Outcome.fault.inj hf]

theorem loadProgram_flags {s t : State} {ws : List Word} {base : Word}
    (h : s.loadProgram ws base = .next t) : t.flags = s.flags := by
  unfold State.loadProgram at h
  split at h
  · cases h
    obtain ⟨-, -, -, hflags, -⟩ := s.placeWords_frame ws base
    exact hflags
  · cases h

theorem reachable_inertClear {s : State} (h : Reachable s) : s.flags.inertClear = true := by
  induction h with
  | construct n => rfl
  | step _ hs ih => exact step_next_inertClear ih hs
  | error _ hs ih => exact step_fault_inertClear ih hs
  | load _ hs ih => rwa [loadProgram_flags hs]
  | reset _ _ => rfl

/-- Settles O36: a step commutes with replacing the four flags, and so keeps them 0 where they
are. -/
theorem inertFlagsAreNeverWrittenOrRead : Obligations.InertFlagsAreNeverWrittenOrRead :=
  ⟨step_withInert, fun _ => rfl, fun _ => reachable_inertClear⟩

end Sys2Proof.Machine

/-! PROOFS. The memory primitives as cells: the bounds check, the read, and the write of one word
(20_memory R52, R53). -/

namespace Sys2Proof.Machine

/-- Every address but the one put keeps its word (20_memory R53). -/
theorem State.sameMemBut_putWord (s : State) (a v : Word) : SameMemBut a s (s.putWord a v) :=
  fun _ hb => s.mem.read_write_ne v hb

/-- A word put inside memory is the word read there (20_memory R52, R53). -/
theorem State.putWord_memRead_self (s : State) {a : Word} (v : Word) (h : a < s.memSize) :
    (s.putWord a v).memRead a = .ok v :=
  (State.memRead_eq_ok _ a v).mpr ⟨h, (s.mem.read_write_self a.toNat v).symm⟩

/-- A read of another address answers a word exactly when it did before the put (20_memory R53). -/
theorem State.putWord_memRead_ne (s : State) {a b : Word} (v w : Word) (hne : b ≠ a) :
    (s.putWord a v).memRead b = .ok w ↔ s.memRead b = .ok w := by
  have hw := s.sameMemBut_putWord a v b.toNat fun e => hne (BitVec.eq_of_toNat_eq e)
  rw [State.memRead_eq_ok, State.memRead_eq_ok, hw, State.putWord_memSize]

/-- Settles O43: both primitives check the same bound, and below it the write is `State.putWord`,
whose read-back and frame are the cell laws above. -/
theorem memoryPrimitives : Obligations.MemoryPrimitives := by
  intro s a v
  constructor
  · intro h
    have hout : ¬ a < s.memSize := BitVec.not_lt.mpr h
    exact ⟨(s.memRead_eq_error a _).mpr ⟨hout, rfl⟩, (s.memWrite_eq_error a v _).mpr ⟨hout, rfl⟩⟩
  · intro h
    refine ⟨(s.memRead_eq_ok a _).mpr ⟨h, rfl⟩, s.putWord a v,
      (s.memWrite_eq_ok _ a v).mpr ⟨h, rfl⟩, s.putWord_memRead_self v h, fun b hne hb => ?_,
      s.sameMemBut_putWord a v, fun _ => rfl, rfl, rfl, rfl, rfl, rfl⟩
    have hr : s.memRead b = .ok (s.mem.read b.toNat) := (s.memRead_eq_ok b _).mpr ⟨hb, rfl⟩
    exact ⟨_, hr, (s.putWord_memRead_ne v _ hne).mpr hr⟩

end Sys2Proof.Machine

/-! PROOFS. MOV, LOAD and STORE from their words to the state after the step
(41_data_movement R120, R123, R124). -/

namespace Sys2Proof.Machine

/-! ### From the word to the handler -/

/-- A running engine that fetches a one-word instruction runs its handler with `pc` past the word
(40_step_cycle R100, R103). -/
theorem State.Fetches.step_complete {s : State} {w : Word} {i : Instr} (h : s.Fetches w)
    (hd : decodeHeader w = .complete i) : step s = exec i (s.setPc (s.pc + 1#32)) := by
  obtain ⟨hrun, hread⟩ := h
  simp [step, State.fetch, State.fetchRest, hrun, hread, hd]

theorem decodeHeader_movRR {w : Word} (h : opcodeOf w = 0x01#8) :
    decodeHeader w = .complete (.movRR (fieldRa w) (fieldRb w)) := by
  simp [decodeHeader, h]

theorem decodeHeader_load {w : Word} (h : opcodeOf w = 0x03#8) :
    decodeHeader w = .complete (.load (fieldRa w) (fieldRb w)) := by
  simp [decodeHeader, h]

theorem decodeHeader_store {w : Word} (h : opcodeOf w = 0x04#8) :
    decodeHeader w = .complete (.store (fieldRa w) (fieldRb w)) := by
  simp [decodeHeader, h]

/-! ### The handlers on either side of the bounds check -/

theorem exec_load_inside {s : State} (d : Reg) {a : Reg} (h : s.reg a < s.memSize) :
    exec (.load d a) s = .next (s.setReg d (s.mem.read (s.reg a).toNat)) :=
  (finish_eq_next _ _).mpr
    ((Except.map_eq_ok _ _ _).mpr ⟨_, (s.memRead_eq_ok _ _).mpr ⟨h, rfl⟩, rfl⟩)

theorem exec_load_outside {s : State} (d : Reg) {a : Reg} (h : s.memSize ≤ s.reg a) :
    exec (.load d a) s = .fault (.memoryAccessError (s.reg a) s) :=
  (finish_eq_fault _ _).mpr
    ((Except.map_eq_error _ _ _).mpr ((s.memRead_eq_error _ _).mpr ⟨BitVec.not_lt.mpr h, rfl⟩))

theorem exec_store_inside {s : State} (v : Reg) {a : Reg} (h : s.reg a < s.memSize) :
    exec (.store v a) s = .next (s.putWord (s.reg a) (s.reg v)) :=
  (finish_eq_next _ _).mpr ((s.memWrite_eq_ok _ _ _).mpr ⟨h, rfl⟩)

theorem exec_store_outside {s : State} (v : Reg) {a : Reg} (h : s.memSize ≤ s.reg a) :
    exec (.store v a) s = .fault (.memoryAccessError (s.reg a) s) :=
  (finish_eq_fault _ _).mpr ((s.memWrite_eq_error _ _ _).mpr ⟨BitVec.not_lt.mpr h, rfl⟩)

/-! ### The steps

`State.setPc` changes no register and no memory word, so a handler run after it reads the operands
of `s`, and the frame is that of the one update the handler makes. -/

/-- Settles O14: the step is `State.setReg` after the advance of `pc`. -/
theorem movRegisterStep : Obligations.MovRegisterStep := by
  intro s w hf hop
  have hrun : s.halted = false := hf.1
  have hstep := hf.step_complete (decodeHeader_movRR hop)
  exact ⟨_, hstep, State.setReg_reg_self _ _ _, fun _ hr => State.setReg_reg_ne _ _ hr,
    fun _ => rfl, rfl, rfl, rfl, hrun, rfl⟩

/-- Settles O15: the bounds check decides between `State.setReg` and the error, both after the
advance of `pc`. -/
theorem loadStep : Obligations.LoadStep := by
  intro s w hf hop
  have hrun : s.halted = false := hf.1
  have hstep := hf.step_complete (decodeHeader_load hop)
  constructor
  · intro hin
    exact ⟨_, hstep.trans (exec_load_inside _ hin), State.setReg_reg_self _ _ _,
      fun _ hr => State.setReg_reg_ne _ _ hr, fun _ => rfl, rfl, rfl, rfl, hrun, rfl⟩
  · intro hout
    exact ⟨_, hstep.trans (exec_load_outside _ hout), fun _ => rfl, fun _ => rfl, rfl, rfl, rfl,
      hrun, rfl⟩

/-- Settles O16: the bounds check decides between `State.putWord` and the error, both after the
advance of `pc`. -/
theorem storeStep : Obligations.StoreStep := by
  intro s w hf hop
  have hrun : s.halted = false := hf.1
  have hstep := hf.step_complete (decodeHeader_store hop)
  constructor
  · intro hin
    exact ⟨_, hstep.trans (exec_store_inside _ hin), Memory.read_write_self _ _ _,
      State.sameMemBut_putWord _ _ _, fun _ => rfl, rfl, rfl, rfl, hrun, rfl⟩
  · intro hout
    exact ⟨_, hstep.trans (exec_store_outside _ hout), fun _ => rfl, fun _ => rfl, rfl, rfl, rfl,
      hrun, rfl⟩

end Sys2Proof.Machine

/-! PROOFS. The seven jumps: what each condition says of ZERO and SIGN, and that a jump is taken
exactly when its condition holds (43_compare_branch R154). -/

namespace Sys2Proof.Machine

/-! ### The conditions as propositions -/

@[simp] theorem Cond.holds_z_iff (f : Flags) : Cond.z.holds f = true ↔ f.zero = true := Iff.rfl

@[simp] theorem Cond.holds_nz_iff (f : Flags) : Cond.nz.holds f = true ↔ f.zero = false := by
  simp [Cond.holds]

@[simp] theorem Cond.holds_l_iff (f : Flags) : Cond.l.holds f = true ↔ f.sign = true := Iff.rfl

@[simp] theorem Cond.holds_g_iff (f : Flags) :
    Cond.g.holds f = true ↔ f.sign = false ∧ f.zero = false := by
  simp [Cond.holds]

@[simp] theorem Cond.holds_le_iff (f : Flags) :
    Cond.le.holds f = true ↔ f.sign = true ∨ f.zero = true := by
  simp [Cond.holds]

@[simp] theorem Cond.holds_ge_iff (f : Flags) :
    Cond.ge.holds f = true ↔ f.sign = false ∨ f.zero = true := by
  simp [Cond.holds]

/-! ### Taken and not taken -/

theorem State.jumpIf_taken (s : State) (x : Half) : s.jumpIf true x = s.setPc (zext32 x) := rfl

theorem State.jumpIf_not_taken (s : State) (x : Half) : s.jumpIf false x = s := rfl

/-- An instruction that jumps on `b` moves `pc` to its target where `b` says that `P` holds, and
leaves the state alone where it does not. -/
theorem exec_jump_of_iff {s : State} {i : Instr} {b : Bool} {x : Half} {P : Prop}
    (hexec : exec i s = .next (s.jumpIf b x)) (hb : b = true ↔ P) :
    (P → exec i s = .next (s.setPc (zext32 x))) ∧ (¬ P → exec i s = .next s) := by
  constructor
  · intro hP
    rw [hexec, hb.mpr hP, s.jumpIf_taken]
  · intro hP
    rw [hexec, Bool.eq_false_iff.mpr (mt hb.mp hP), s.jumpIf_not_taken]

/-- Settles O33: every jump is `State.jumpIf` on its own condition, JMP on `true`. -/
theorem jumpsTakenWhen : Obligations.JumpsTakenWhen := by
  intro s x
  simp only [List.forall_mem_cons]
  refine ⟨?jmp, ?jz, ?jnz, ?jl, ?jg, ?jle, ?jge, fun _ h => absurd h List.not_mem_nil⟩
  case jmp => exact exec_jump_of_iff rfl (iff_of_true rfl trivial)
  case jz => exact exec_jump_of_iff rfl (Cond.holds_z_iff _)
  case jnz => exact exec_jump_of_iff rfl (Cond.holds_nz_iff _)
  case jl => exact exec_jump_of_iff rfl (Cond.holds_l_iff _)
  case jg => exact exec_jump_of_iff rfl (Cond.holds_g_iff _)
  case jle => exact exec_jump_of_iff rfl (Cond.holds_le_iff _)
  case jge => exact exec_jump_of_iff rfl (Cond.holds_ge_iff _)

end Sys2Proof.Machine

/-! PROOFS. PUSH and POP from their words to the state after the step
(44_stack_call R170, R171). -/

namespace Sys2Proof.Machine

/-! ### From the word to the instruction -/

theorem decodeHeader_push {w : Word} (h : opcodeOf w = 0x32#8) :
    decodeHeader w = .complete (.push (fieldRa w)) := by
  simp [decodeHeader, h]

theorem decodeHeader_pop {w : Word} (h : opcodeOf w = 0x33#8) :
    decodeHeader w = .complete (.pop (fieldRa w)) := by
  simp [decodeHeader, h]

/-! ### The stack on either side of its checks -/

/-- A push with room below `sp`: the invariant on `sp` puts the slot inside memory (10_state R30). -/
theorem State.push_of_room {s : State} (v : Word) (hsp : s.spOk = true) (h : s.sp ≠ 0#32) :
    s.push v = .ok ((s.setSp (s.sp - 1#32)).putWord (s.sp - 1#32) v) :=
  (s.push_eq_ok _ v).mpr ⟨h, s.pushSlot_lt h (of_decide_eq_true hsp), rfl⟩

theorem State.push_of_full {s : State} (v : Word) (h : s.sp = 0#32) :
    s.push v = .error (.stackError .overflow s) :=
  (s.push_eq_error v _).mpr (.inl ⟨h, rfl⟩)

theorem State.pop_of_nonempty {s : State} (h : s.sp < s.memSize) :
    s.pop = .ok (s.mem.read s.sp.toNat, s.setSp (s.sp + 1#32)) :=
  (s.pop_eq_ok _ _).mpr ⟨h, rfl, rfl⟩

theorem State.pop_of_empty {s : State} (h : s.memSize ≤ s.sp) :
    s.pop = .error (.stackError .underflow s) :=
  (s.pop_eq_error _).mpr ⟨BitVec.not_lt.mpr h, rfl⟩

/-! ### The handlers on either side of the checks -/

theorem exec_push_of_room {s : State} (r : Reg) (hsp : s.spOk = true) (h : s.sp ≠ 0#32) :
    exec (.push r) s = .next ((s.setSp (s.sp - 1#32)).putWord (s.sp - 1#32) (s.reg r)) :=
  (finish_eq_next _ _).mpr (State.push_of_room _ hsp h)

theorem exec_push_of_full {s : State} (r : Reg) (h : s.sp = 0#32) :
    exec (.push r) s = .fault (.stackError .overflow s) :=
  (finish_eq_fault _ _).mpr (State.push_of_full _ h)

theorem exec_pop_of_nonempty {s : State} (r : Reg) (h : s.sp < s.memSize) :
    exec (.pop r) s = .next ((s.setSp (s.sp + 1#32)).setReg r (s.mem.read s.sp.toNat)) :=
  (finish_eq_next _ _).mpr ((Except.map_eq_ok _ _ _).mpr ⟨_, State.pop_of_nonempty h, rfl⟩)

theorem exec_pop_of_empty {s : State} (r : Reg) (h : s.memSize ≤ s.sp) :
    exec (.pop r) s = .fault (.stackError .underflow s) :=
  (finish_eq_fault _ _).mpr ((Except.map_eq_error _ _ _).mpr (State.pop_of_empty h))

/-! ### The steps

The advance of `pc` changes neither `sp` nor MEM_SIZE, so the checks are those of the state before
the step. -/

/-- Settles O17: the check of `sp = 0` decides between one `State.putWord` below the moved `sp` and
the overflow, both after the advance of `pc`. -/
theorem pushStep : Obligations.PushStep := by
  intro s w hsp hf hop
  have hrun : s.halted = false := hf.1
  have hstep := hf.step_complete (decodeHeader_push hop)
  constructor
  · intro hroom
    exact ⟨_, hstep.trans (exec_push_of_room _ hsp hroom), rfl, Memory.read_write_self _ _ _,
      State.sameMemBut_putWord _ _ _, fun _ => rfl, rfl, rfl, hrun, rfl⟩
  · intro hfull
    exact ⟨_, hstep.trans (exec_push_of_full _ hfull), rfl, fun _ => rfl, fun _ => rfl, rfl, rfl,
      hrun, rfl⟩

/-- Settles O18: the check of `sp` against MEM_SIZE decides between one `State.setReg` with the moved
`sp` and the underflow, both after the advance of `pc`; memory is not written. -/
theorem popStep : Obligations.PopStep := by
  intro s w hf hop
  have hrun : s.halted = false := hf.1
  have hstep := hf.step_complete (decodeHeader_pop hop)
  constructor
  · intro hnonempty
    exact ⟨_, hstep.trans (exec_pop_of_nonempty _ hnonempty), State.setReg_reg_self _ _ _, rfl,
      fun _ hr => State.setReg_reg_ne _ _ hr, fun _ => rfl, rfl, rfl, hrun, rfl⟩
  · intro hempty
    exact ⟨_, hstep.trans (exec_pop_of_empty _ hempty), rfl, fun _ => rfl, fun _ => rfl, rfl, rfl,
      hrun, rfl⟩

end Sys2Proof.Machine

/-! PROOFS. NOP, IN and OUT from their words to the state after the step
(45_system R180, R182, R183). -/

namespace Sys2Proof.Machine

/-! ### From the word to the instruction -/

theorem decodeHeader_nop {w : Word} (h : opcodeOf w = 0x00#8) :
    decodeHeader w = .complete .nop := by
  simp [decodeHeader, h]

theorem decodeHeader_inp {w : Word} (h : opcodeOf w = 0x40#8) :
    decodeHeader w = .complete (.inp (fieldRa w)) := by
  simp [decodeHeader, h]

theorem decodeHeader_out {w : Word} (h : opcodeOf w = 0x41#8) :
    decodeHeader w = .complete (.out (fieldRa w)) := by
  simp [decodeHeader, h]

/-! ### The handlers -/

theorem exec_nop (s : State) : exec .nop s = .next s := rfl

theorem exec_inp (r : Reg) (s : State) : exec (.inp r) s = .next s := rfl

theorem exec_out (r : Reg) (s : State) : exec (.out r) s = .next s := rfl

/-! ### The step -/

/-- The step of NOP, IN or OUT is the advance of `pc`, whatever bits 23:0 of the word are. -/
theorem State.Fetches.step_nopInOut {s : State} {w : Word} (hf : s.Fetches w)
    (hop : opcodeOf w = 0x00#8 ∨ opcodeOf w = 0x40#8 ∨ opcodeOf w = 0x41#8) :
    step s = .next (s.setPc (s.pc + 1#32)) := by
  obtain hnop | hinp | hout := hop
  · exact (hf.step_complete (decodeHeader_nop hnop)).trans (exec_nop _)
  · exact (hf.step_complete (decodeHeader_inp hinp)).trans (exec_inp _ _)
  · exact (hf.step_complete (decodeHeader_out hout)).trans (exec_out _ _)

/-- Settles O19: the step is `State.setPc` alone, which changes nothing but `pc`. -/
theorem nopInOutStep : Obligations.NopInOutStep := by
  intro s w hf hop
  have hrun : s.halted = false := hf.1
  exact ⟨_, hf.step_nopInOut hop, fun _ => rfl, fun _ => rfl, rfl, rfl, rfl, hrun, rfl⟩

end Sys2Proof.Machine

/-! PROOFS. A load that fits: the words it places and what it leaves unchanged
(70_reset_and_hazards R225). -/

namespace Sys2Proof.Machine

/-! ### Placed words, inside and outside their range -/

/-- Word `k` of the words placed stands at `a + k`. -/
theorem State.placeWords_read_inside (s : State) {ws : List Word} {a : Word} {k : Nat}
    (hfit : a.toNat + ws.length ≤ s.memSize.toNat) (hk : k < ws.length) :
    (s.placeWords a ws).mem.read (a.toNat + k) = ws[k] := by
  have hin : a.toNat ≤ a.toNat + k ∧ a.toNat + k < a.toNat + ws.length := by omega
  rw [s.placeWords_read ws a hfit, dif_pos hin]
  simp only [Nat.add_sub_cancel_left]

/-- An address below the words placed, or past them, reads as before. -/
theorem State.placeWords_read_outside (s : State) {ws : List Word} {a : Word} {b : Nat}
    (hfit : a.toNat + ws.length ≤ s.memSize.toNat)
    (hout : b < a.toNat ∨ a.toNat + ws.length ≤ b) :
    (s.placeWords a ws).mem.read b = s.mem.read b := by
  rw [s.placeWords_read ws a hfit, dif_neg (by omega)]

/-! ### The load -/

theorem State.loadProgram_of_fits {s : State} {ws : List Word} {base : Word}
    (hfit : base.toNat + ws.length ≤ s.memSize.toNat) :
    s.loadProgram ws base = .next ((s.placeWords base ws).setPc base) :=
  if_pos (decide_eq_true hfit)

/-- Settles O57: a load that fits is `State.placeWords` followed by `State.setPc`; what the placed
words leave unchanged is `State.placeWords_frame`. -/
theorem loadProgramWritesTheWords : Obligations.LoadProgramWritesTheWords := by
  intro s words base hfit
  obtain ⟨hregs, -, hsp, hflags, hhalted, hsize⟩ := s.placeWords_frame words base
  have hreg : SameRegs s (s.placeWords base words) := fun r => by simp only [State.reg, hregs]
  exact ⟨_, State.loadProgram_of_fits hfit, rfl,
    fun _ hk => s.placeWords_read_inside hfit hk, fun _ hout => s.placeWords_read_outside hfit hout,
    hreg, hsp, hflags, hhalted, hsize⟩

end Sys2Proof.Machine

/-! PROOFS. The decoder and the encoder: the round trip in both directions, the ignored bits, and the
unknown and the reserved words (30_encoding R71, R75, R80, R82, R83). -/

namespace Sys2Proof

/-! ### From the encoding to the instruction -/

theorem decode_of_complete {w : Word} {i : Instr} (h : decodeHeader w = .complete i)
    (rest : List Word) : decode (w :: rest) = .instr i rest := by
  simp [decode, h]

theorem decode_of_needsLiteral {w : Word} {d : Reg} (h : decodeHeader w = .needsLiteral d)
    (l : Word) (rest : List Word) : decode (w :: l :: rest) = .instr (.movI32 d l) rest := by
  simp [decode, h]

theorem decode_of_needsTwoLiterals {w : Word} (h : decodeHeader w = .needsTwoLiterals)
    (a v : Word) (rest : List Word) :
    decode (w :: a :: v :: rest) = .instr (.storeI32 a v) rest := by
  simp [decode, h]

theorem decodeHeader_wordRL (d : Reg) : decodeHeader (wordRL 0xE2 d) = .needsLiteral d := by
  simp [decodeHeader, opcodeOf_wordRL, sentinelRL_wordRL, fieldRa_wordRL]

theorem decodeHeader_wordLL : decodeHeader (wordLL 0xE4) = .needsTwoLiterals := by
  simp [decodeHeader, opcodeOf_wordLL, sentinelLL_wordLL]

/-- The canonical words of an instruction decode to it: each format's opcode and operand fields read
back what the encoder put there. -/
theorem decode_encode (i : Instr) (rest : List Word) :
    decode (encode i ++ rest) = .instr i rest := by
  cases i with
  | nop | ret | hlt =>
    exact decode_of_complete (by simp [decodeHeader, opcodeOf_wordN]) rest
  | not _ | push _ | pop _ | inp _ | out _ =>
    exact decode_of_complete (by simp [decodeHeader, opcodeOf_wordR, fieldRa_wordR]) rest
  | movRR _ _ | load _ _ | store _ _ | add _ _ | sub _ _ | and _ _ | or _ _ | xor _ _ | cmpRR _ _ =>
    exact decode_of_complete
      (by simp [decodeHeader, opcodeOf_wordRR, fieldRa_wordRR, fieldRb_wordRR]) rest
  | movI16 _ _ | cmpI16 _ _ | addI16 _ _ =>
    exact decode_of_complete
      (by simp [decodeHeader, opcodeOf_wordRI, fieldRa_wordRI, fieldImm16_wordRI]) rest
  | jmp _ | jz _ | jnz _ | jl _ | jg _ | jle _ | jge _ | call _ =>
    exact decode_of_complete (by simp [decodeHeader, opcodeOf_wordJ, fieldImm16_wordJ]) rest
  | movI32 d l => exact decode_of_needsLiteral (decodeHeader_wordRL d) l rest
  | storeI32 a v => exact decode_of_needsTwoLiterals decodeHeader_wordLL a v rest

/-- Settles O1: the opcode and the operand fields of the encoder's words, format by format. -/
theorem decodeOfEncodeIsTheInstruction : Obligations.DecodeOfEncodeIsTheInstruction := decode_encode

/-! ### From the word back to its canonical form -/

/-- The canonical word of a one-word instruction with the given opcode and operand fields, by the
opcode's format (30_encoding R71); fields the format does not have are not used. -/
def oneWord (op : Byte) (ra rb : Reg) (imm16 : Half) : Word :=
  match formatOf op with
  | some .r => wordR op ra
  | some .rr => wordRR op ra rb
  | some .ri => wordRI op ra imm16
  | some .j => wordJ op imm16
  | some .n | some .rl | some .ll | none => wordN op

/-- Where the format is that of a one-word instruction, the canonicalised word is rebuilt from its
opcode and its fields. -/
theorem canonicalise_eq_oneWord (w : Word)
    (h : formatOf (opcodeOf w) ∉ [some .rl, some .ll, none]) :
    canonicalise w = oneWord (opcodeOf w) (fieldRa w) (fieldRb w) (fieldImm16 w) := by
  unfold oneWord
  split
  next hf => exact canonicalise_r w hf
  next hf => exact canonicalise_rr w hf
  next hf => exact canonicalise_ri w hf
  next hf => exact canonicalise_j w hf
  next hf => exact canonicalise_n w hf
  all_goals
    next hf => simp [hf] at h

/-- A one-word instruction encodes to the canonical form of the word it was decoded from. -/
theorem encode_of_complete {w : Word} {i : Instr} (h : decodeHeader w = .complete i) :
    encode i = [canonicalise w] := by
  unfold decodeHeader at h
  split at h
  case h_27 | h_28 => split at h <;> cases h
  case h_31 => cases h
  all_goals
    rename_i hop
    cases h
    rw [canonicalise_eq_oneWord w (by rw [hop]; decide), hop]
    rfl

/-- The decoder asks for one literal exactly at opcode 0xE2 with its sentinel. -/
theorem decodeHeader_eq_needsLiteral (w : Word) (d : Reg) :
    decodeHeader w = .needsLiteral d ↔
      opcodeOf w = 0xE2#8 ∧ sentinelRL w = true ∧ fieldRa w = d := by
  constructor
  · intro h
    unfold decodeHeader at h
    split at h
    case h_27 hop => split at h <;> cases h; exact ⟨hop, ‹_›, rfl⟩
    case h_28 => split at h <;> cases h
    all_goals cases h
  · rintro ⟨hop, hs, rfl⟩
    simp [decodeHeader, hop, hs]

/-- The decoder asks for two literals exactly at opcode 0xE4 with its sentinel. -/
theorem decodeHeader_eq_needsTwoLiterals (w : Word) :
    decodeHeader w = .needsTwoLiterals ↔ opcodeOf w = 0xE4#8 ∧ sentinelLL w = true := by
  constructor
  · intro h
    unfold decodeHeader at h
    split at h
    case h_27 => split at h <;> cases h
    case h_28 hop => split at h <;> cases h; exact ⟨hop, ‹_›⟩
    all_goals cases h
  · rintro ⟨hop, hs⟩
    simp [decodeHeader, hop, hs]

/-- The decoder calls a word reserved exactly at the two opcodes with a sentinel, without it. -/
theorem decodeHeader_eq_reserved (w : Word) :
    decodeHeader w = .reserved ↔
      (opcodeOf w = 0xE2#8 ∧ sentinelRL w = false) ∨
        (opcodeOf w = 0xE4#8 ∧ sentinelLL w = false) := by
  constructor
  · intro h
    unfold decodeHeader at h
    split at h
    case h_27 hop => split at h <;> cases h; exact .inl ⟨hop, eq_false_of_ne_true ‹_›⟩
    case h_28 hop => split at h <;> cases h; exact .inr ⟨hop, eq_false_of_ne_true ‹_›⟩
    all_goals cases h
  · rintro (⟨hop, hs⟩ | ⟨hop, hs⟩) <;> simp [decodeHeader, hop, hs]

theorem canonicalise_of_needsLiteral {w : Word} {d : Reg} (h : decodeHeader w = .needsLiteral d) :
    canonicalise w = wordRL 0xE2 d := by
  obtain ⟨hop, hs, rfl⟩ := (decodeHeader_eq_needsLiteral w d).mp h
  rw [canonicalise_rl w (by rw [hop]; rfl) hs, hop]
  rfl

theorem canonicalise_of_needsTwoLiterals {w : Word} (h : decodeHeader w = .needsTwoLiterals) :
    canonicalise w = wordLL 0xE4 := by
  obtain ⟨hop, hs⟩ := (decodeHeader_eq_needsTwoLiterals w).mp h
  rw [canonicalise_ll w (by rw [hop]; rfl) hs, hop]
  rfl

/-- The three ways in which words begin with an instruction. -/
theorem decode_eq_instr {w : Word} {ws rest : List Word} {i : Instr}
    (h : decode (w :: ws) = .instr i rest) :
    (decodeHeader w = .complete i ∧ ws = rest) ∨
      (∃ d l, decodeHeader w = .needsLiteral d ∧ i = .movI32 d l ∧ ws = l :: rest) ∨
      (∃ a v, decodeHeader w = .needsTwoLiterals ∧ i = .storeI32 a v ∧ ws = a :: v :: rest) := by
  cases hd : decodeHeader w with
  | complete j =>
    rw [decode_of_complete hd] at h
    cases h
    exact .inl ⟨rfl, rfl⟩
  | needsLiteral d =>
    match ws with
    | [] => simp [decode, hd] at h
    | l :: ls =>
      rw [decode_of_needsLiteral hd] at h
      cases h
      exact .inr (.inl ⟨d, l, rfl, rfl, rfl⟩)
  | needsTwoLiterals =>
    match ws with
    | [] | [_] => simp [decode, hd] at h
    | a :: v :: ls =>
      rw [decode_of_needsTwoLiterals hd] at h
      cases h
      exact .inr (.inr ⟨a, v, rfl, rfl, rfl⟩)
  | unknown op => simp [decode, hd] at h
  | reserved => simp [decode, hd] at h

theorem encode_of_decode {w : Word} {ws rest : List Word} {i : Instr}
    (h : decode (w :: ws) = .instr i rest) : encode i ++ rest = canonicalise w :: ws := by
  obtain ⟨hd, rfl⟩ | ⟨d, l, hd, rfl, rfl⟩ | ⟨a, v, hd, rfl, rfl⟩ := decode_eq_instr h
  · rw [encode_of_complete hd]
    rfl
  · rw [canonicalise_of_needsLiteral hd]
    rfl
  · rw [canonicalise_of_needsTwoLiterals hd]
    rfl

/-- Settles O2: the canonical form of a word is rebuilt from the fields the decoder reads, and
literals are kept whole. -/
theorem encodeOfDecodeClearsIgnoredBits : Obligations.EncodeOfDecodeClearsIgnoredBits :=
  fun _ _ _ _ => encode_of_decode

/-! ### What the ignored bits leave alone -/

/-- No bit of the opcode is ignored. -/
theorem opcodeOf_canonicalise (w : Word) : opcodeOf (canonicalise w) = opcodeOf w := by
  have hkeep : ∀ op : Byte, (~~~ ignoredBits op).extractLsb' 24 8 = BitVec.allOnes 8 := by
    intro op
    unfold ignoredBits
    split <;> rfl
  rw [canonicalise, opcodeOf, BitVec.extractLsb'_and, hkeep, BitVec.and_allOnes, opcodeOf]

/-- No bit of 0xE2's sentinel is ignored. -/
theorem sentinelRL_canonicalise {w : Word} (h : opcodeOf w = 0xE2#8) :
    sentinelRL (canonicalise w) = sentinelRL w := by
  have hkeep : (~~~ ignoredBits 0xE2#8).extractLsb' 0 8 = BitVec.allOnes 8 := rfl
  rw [canonicalise, h, sentinelRL, BitVec.extractLsb'_and, hkeep, BitVec.and_allOnes, sentinelRL]

/-- No bit of a word with opcode 0xE4 is ignored. -/
theorem canonicalise_of_opcode_E4 {w : Word} (h : opcodeOf w = 0xE4#8) : canonicalise w = w := by
  have hkeep : ~~~ ignoredBits 0xE4#8 = BitVec.allOnes 32 := rfl
  rw [canonicalise, h, hkeep, BitVec.and_allOnes]

/-- The decoder answers the same for a word and its canonical form. -/
theorem decodeHeader_canonicalise (w : Word) : decodeHeader (canonicalise w) = decodeHeader w := by
  cases hd : decodeHeader w with
  | complete i =>
    have hround := decode_encode i []
    rw [encode_of_complete hd] at hround
    obtain ⟨hc, -⟩ | ⟨d, l, -, -, hnil⟩ | ⟨a, v, -, -, hnil⟩ := decode_eq_instr hround
    · exact hc
    · cases hnil
    · cases hnil
  | needsLiteral d => rw [canonicalise_of_needsLiteral hd, decodeHeader_wordRL]
  | needsTwoLiterals => rw [canonicalise_of_needsTwoLiterals hd, decodeHeader_wordLL]
  | unknown op =>
    rw [decodeHeader_eq_unknown, opcodeOf_canonicalise]
    exact (decodeHeader_eq_unknown w op).mp hd
  | reserved =>
    obtain ⟨hop, hs⟩ | ⟨hop, -⟩ := (decodeHeader_eq_reserved w).mp hd
    · rw [decodeHeader_eq_reserved, opcodeOf_canonicalise, sentinelRL_canonicalise hop]
      exact .inl ⟨hop, hs⟩
    · rw [canonicalise_of_opcode_E4 hop, hd]

/-- Settles O3: the decoder answers for a word what it answers for its canonical form. -/
theorem ignoredBitsDoNotChangeDecoding : Obligations.IgnoredBitsDoNotChangeDecoding := by
  intro w v h
  rw [← decodeHeader_canonicalise w, h, decodeHeader_canonicalise]

/-! ### Unknown and reserved words in numbers -/

theorem opcodeOf_toNat (w : Word) : (opcodeOf w).toNat = w.toNat / 2 ^ 24 := by
  have hw : w.toNat < 2 ^ 32 := w.isLt
  rw [opcodeOf, BitVec.extractLsb'_toNat, Nat.shiftRight_eq_div_pow]
  omega

theorem opcodeOf_eq_iff (w : Word) (op : Byte) :
    opcodeOf w = op ↔ w.toNat / 2 ^ 24 = op.toNat := by
  rw [← opcodeOf_toNat, BitVec.toNat_inj]

/-- The opcodes absent from the table, as the gaps between its rows (30_encoding R82). -/
theorem formatOf_eq_none_iff : ∀ op : Byte, formatOf op = none ↔
    (0x0B ≤ op.toNat ∧ op.toNat ≤ 0x0F) ∨ (0x19 ≤ op.toNat ∧ op.toNat ≤ 0x2F) ∨
      (0x34 ≤ op.toNat ∧ op.toNat ≤ 0x3F) ∨ (0x42 ≤ op.toNat ∧ op.toNat ≤ 0xE1) ∨
      op.toNat = 0xE3 ∨ (0xE6 ≤ op.toNat ∧ op.toNat ≤ 0xFE) := by
  decide +kernel

/-- Settles O4: unknown means absent from the table, and the table's gaps are finitely many bytes. -/
theorem unknownExactlyInTheOpcodeGaps : Obligations.UnknownExactlyInTheOpcodeGaps := by
  intro w op
  rw [decodeHeader_eq_unknown, and_comm, eq_comm (a := op), opcodeOf_eq_iff,
    eq_comm (b := op.toNat)]
  refine and_congr_right fun h => ?_
  rw [(opcodeOf_eq_iff w op).mpr h.symm]
  exact formatOf_eq_none_iff op

theorem sentinelRL_eq_false_iff (w : Word) : sentinelRL w = false ↔ w.toNat % 2 ^ 8 ≠ 0xFF := by
  rw [sentinelRL, beq_eq_false_iff_ne, ne_eq, ← BitVec.toNat_inj, BitVec.extractLsb'_toNat]
  rfl

theorem sentinelLL_eq_false_iff (w : Word) :
    sentinelLL w = false ↔ w.toNat % 2 ^ 24 ≠ 0xFFFFFF := by
  rw [sentinelLL, beq_eq_false_iff_ne, ne_eq, ← BitVec.toNat_inj, BitVec.extractLsb'_toNat]
  rfl

/-- Settles O5: the decoder's own condition, read as numbers. -/
theorem reservedExactlyWithoutSentinel : Obligations.ReservedExactlyWithoutSentinel := by
  intro w
  rw [decodeHeader_eq_reserved, opcodeOf_eq_iff, opcodeOf_eq_iff, sentinelRL_eq_false_iff,
    sentinelLL_eq_false_iff]
  rfl

/-- Settles O6: eight of the words are canonical encodings; the last has ignored bits set. -/
theorem sampleWordsDecode : Obligations.SampleWordsDecode :=
  ⟨decode_encode (.load 3 2) [], decode_encode (.store 1 2) [], decode_encode (.sub 1 2) [],
    decode_encode (.cmpI16 1 5) [], decode_encode (.jge 0x20) [], decode_encode (.pop 2) [],
    decode_encode (.movI32 1 0x12345678) [], decode_encode (.storeI32 0x41 0xDEADBEEF) [], rfl⟩

end Sys2Proof

/-! PROOFS. The invariant: every shape a handler's next state can have keeps it, and so does what a
fault leaves; and MEM_SIZE never changes (10_state R30, R34, R36, R41, 20_memory R50). -/

namespace Sys2Proof.Machine

/-! ### What the invariant does not look at -/

/-- The invariant speaks of memory, MEM_SIZE, `sp` and the flags only. -/
theorem State.Inv_congr {s t : State} (hmem : t.mem = s.mem) (hsize : t.memSize = s.memSize)
    (hsp : t.sp = s.sp) (hflags : t.flags = s.flags) : t.Inv = s.Inv := by
  simp only [State.Inv, State.memOk, State.spOk, hmem, hsize, hsp, hflags]

theorem State.setPc_Inv (s : State) (x : Word) : (s.setPc x).Inv = s.Inv :=
  State.Inv_congr rfl rfl rfl rfl

theorem State.setReg_Inv (s : State) (d : Reg) (v : Word) : (s.setReg d v).Inv = s.Inv :=
  State.Inv_congr rfl rfl rfl rfl

theorem State.halt_Inv (s : State) : s.halt.Inv = s.Inv := State.Inv_congr rfl rfl rfl rfl

/-! ### What keeps it -/

theorem State.setZS_keeps_Inv {s : State} (res : Word) (h : s.Inv = true) :
    (s.setZS res).Inv = true := by
  obtain ⟨hmem, hsp, hinert, -⟩ := s.Inv_iff.mp h
  exact (State.Inv_iff _).mpr ⟨hmem, hsp, s.flags.setZS_ok res hinert⟩

theorem State.putWord_keeps_Inv {s : State} {a : Word} (v : Word) (ha : a < s.memSize)
    (h : s.Inv = true) : (s.putWord a v).Inv = true := by
  obtain ⟨hmem, hsp, hflags⟩ := s.Inv_iff.mp h
  exact (State.Inv_iff _).mpr ⟨s.putWord_memOk a v hmem ha, hsp, hflags⟩

theorem State.setSp_keeps_Inv {s : State} {a : Word} (ha : a ≤ s.memSize) (h : s.Inv = true) :
    (s.setSp a).Inv = true := by
  obtain ⟨hmem, -, hflags⟩ := s.Inv_iff.mp h
  exact (State.Inv_iff _).mpr ⟨hmem, ha, hflags⟩

/-- Every shape of a handler's next state keeps the invariant. -/
theorem Effect.keeps_Inv {s t : State} (e : Effect s t) (h : s.Inv = true) : t.Inv = true := by
  cases e with
  | same => exact h
  | setReg d v => exact (s.setReg_Inv d v).trans h
  | aluWrite op d b => exact State.setZS_keeps_Inv _ ((s.setReg_Inv d _).trans h)
  | setZS res => exact State.setZS_keeps_Inv res h
  | setPc x => exact (s.setPc_Inv x).trans h
  | store a v ha => exact State.putWord_keeps_Inv v ha h
  | push v x h0 hslot =>
    rw [State.setPc_Inv]
    exact State.putWord_keeps_Inv v hslot (State.setSp_keeps_Inv (BitVec.le_of_lt hslot) h)
  | popReg d hsp =>
    have hup : s.sp + 1#32 ≤ s.memSize := by bv_omega
    rw [State.setReg_Inv]
    exact State.setSp_keeps_Inv hup h
  | popPc hsp =>
    have hup : s.sp + 1#32 ≤ s.memSize := by bv_omega
    rw [State.setPc_Inv]
    exact State.setSp_keeps_Inv hup h
  | halt => exact s.halt_Inv.trans h

/-! ### Faults -/

/-- With `0 <= sp <= MEM_SIZE` a handler that faults leaves its state untouched. -/
theorem exec_fault_left {i : Instr} {s : State} {f : Fault} (hsp : s.sp ≤ s.memSize)
    (h : exec i s = .fault f) : f.left = s := by
  obtain ⟨a, -, rfl⟩ | ⟨-, rfl⟩ | ⟨-, rfl⟩ | ⟨hover, -⟩ := exec_fault i s f h
  · rfl
  · rfl
  · rfl
  · exact absurd hsp (BitVec.not_le.mpr hover)

/-- What a stop of the fetch part leaves: the state but for `pc`, or the soft halt. -/
theorem State.fetch_stop_left {s : State} {f : Fault} (h : s.fetch = .stop f) :
    f.left = s ∨ f.left = s.setPc (s.pc + 1#32) ∨ f.left = (s.setPc (s.pc + 1#32)).halt := by
  obtain ⟨-, ⟨a, -, rfl | ⟨rfl, -⟩⟩ | ⟨op, rfl, -⟩⟩ := s.fetch_stop f h
  · exact .inl rfl
  · exact .inr (.inl rfl)
  · exact .inr (.inr rfl)

/-! ### The step -/

/-- A completed step is no change, or an effect of the state with `pc` advanced. -/
theorem step_next_effect {s t : State} (h : step s = .next t) :
    t = s ∨ ∃ x, Effect (s.setPc x) t := by
  obtain ⟨-, hs⟩ | ⟨i, u, hf, hs⟩ | ⟨f, -, hs⟩ | ⟨w, a, -, hs⟩ := step_cases s
  · exact .inl (Host.Outcome.next.inj (h.symm.trans hs))
  · obtain ⟨-, -, rfl, -⟩ := s.fetch_run u i hf
    exact .inr ⟨_, exec_next i _ t (hs.symm.trans h)⟩
  · cases hs.symm.trans h
  · cases hs.symm.trans h

/-- A faulting step stops in the fetch part or in the handler of a fetched instruction. -/
theorem step_fault_cases {s : State} {f : Fault} (h : step s = .fault f) :
    s.fetch = .stop f ∨
      ∃ i, s.fetch = .run i (s.setPc (s.pc + BitVec.ofNat 32 i.words)) ∧
        exec i (s.setPc (s.pc + BitVec.ofNat 32 i.words)) = .fault f := by
  obtain ⟨-, hs⟩ | ⟨i, u, hf, hs⟩ | ⟨g, hf, hs⟩ | ⟨w, a, -, hs⟩ := step_cases s
  · cases hs.symm.trans h
  · obtain ⟨-, -, rfl, -⟩ := s.fetch_run u i hf
    exact .inr ⟨i, hf, hs.symm.trans h⟩
  · cases hs.symm.trans h
    exact .inl hf
  · cases hs.symm.trans h

theorem step_next_keeps_Inv {s t : State} (h : s.Inv = true) (hs : step s = .next t) :
    t.Inv = true := by
  obtain rfl | ⟨x, e⟩ := step_next_effect hs
  · exact h
  · exact e.keeps_Inv ((s.setPc_Inv x).trans h)

theorem step_fault_keeps_Inv {s : State} {f : Fault} (h : s.Inv = true) (hs : step s = .fault f) :
    f.left.Inv = true := by
  obtain hf | ⟨i, -, hexec⟩ := step_fault_cases hs
  · obtain hl | hl | hl := State.fetch_stop_left hf
    · rw [hl, h]
    · rw [hl, State.setPc_Inv, h]
    · rw [hl, State.halt_Inv, State.setPc_Inv, h]
  · obtain ⟨-, hsp, -⟩ := s.Inv_iff.mp h
    have hleft := exec_fault_left (s := s.setPc (s.pc + BitVec.ofNat 32 i.words)) hsp hexec
    rw [hleft, State.setPc_Inv, h]

/-- Settles O51: a next state by the shapes of `Effect`, a fault by what it leaves. -/
theorem stepKeepsTheInvariant : Obligations.StepKeepsTheInvariant :=
  fun _ h => ⟨fun _ => step_next_keeps_Inv h, fun _ => step_fault_keeps_Inv h⟩

/-! ### From construction on -/

/-- The state after construction, in the form the invariant's clauses ask for. -/
theorem State.construct_Inv (n : Word) : (State.construct n).Inv = true :=
  (State.Inv_iff _).mpr ⟨rfl, BitVec.le_refl n, rfl, rfl⟩

/-- Settles O52: memory is empty, `sp` is MEM_SIZE and every flag is 0. -/
theorem resetMeetsTheInvariant : Obligations.ResetMeetsTheInvariant :=
  ⟨State.construct_Inv, State.construct_Inv _⟩

theorem loadProgram_keeps_Inv {s t : State} {ws : List Word} {base : Word} (h : s.Inv = true)
    (hs : s.loadProgram ws base = .next t) : t.Inv = true := by
  unfold State.loadProgram at hs
  split at hs
  · cases hs
    obtain ⟨hmem, hsp, hflags⟩ := s.Inv_iff.mp h
    obtain ⟨-, -, hpsp, hpflags, -, hpsize⟩ := s.placeWords_frame ws base
    rw [State.setPc_Inv, State.Inv_iff, hpsp, hpflags, hpsize]
    exact ⟨s.placeWords_memOk ws base hmem, hsp, hflags⟩
  · cases hs

/-- Settles O53: each of the host's operations keeps the invariant. -/
theorem reachableStatesMeetTheInvariant : Obligations.ReachableStatesMeetTheInvariant := by
  intro s h
  induction h with
  | construct n => exact State.construct_Inv n
  | step _ hs ih => exact step_next_keeps_Inv ih hs
  | error _ hs ih => exact step_fault_keeps_Inv ih hs
  | load _ hs ih => exact loadProgram_keeps_Inv ih hs
  | reset _ _ => exact State.construct_Inv _

/-- Settles O56: each clause is a field of the constructed state; an unlisted word reads as 0. -/
theorem stateAfterReset : Obligations.StateAfterReset := by
  intro n
  have hreg : ∀ r, (State.construct n).reg r = 0#32 := fun r => by
    simp [State.reg, State.construct]
  exact ⟨rfl, rfl, rfl, rfl, rfl, rfl, rfl, hreg, fun a ha =>
    (State.memRead_eq_ok _ a _).mpr ⟨ha, (Memory.read_nil _).symm⟩⟩

/-! ### MEM_SIZE -/

theorem Effect.memSize_eq {s t : State} (e : Effect s t) : t.memSize = s.memSize := by
  cases e <;> rfl

theorem exec_fault_memSize {i : Instr} {s : State} {f : Fault} (h : exec i s = .fault f) :
    f.left.memSize = s.memSize := by
  obtain ⟨a, -, rfl⟩ | ⟨-, rfl⟩ | ⟨-, rfl⟩ | ⟨-, rfl⟩ := exec_fault i s f h <;> rfl

/-- Settles O54: no shape of a next state and nothing a fault leaves has another MEM_SIZE. -/
theorem memorySizeIsFixed : Obligations.MemorySizeIsFixed := by
  intro s
  constructor
  · intro t hs
    obtain rfl | ⟨x, e⟩ := step_next_effect hs
    · rfl
    · exact e.memSize_eq
  · intro f hs
    obtain hf | ⟨i, -, hexec⟩ := step_fault_cases hs
    · obtain hl | hl | hl := State.fetch_stop_left hf <;> rw [hl] <;> rfl
    · exact (exec_fault_memSize hexec).trans (s.setPc_memSize _)

end Sys2Proof.Machine

/-! PROOFS. The handlers, each said once: when it completes and with which state, and when it faults;
and the results, the frames and the whole-machine rules read off from that (41_data_movement, 42_alu,
43_compare_branch, 44_stack_call, 45_system, 60_exceptions R191, R192). -/

namespace Sys2Proof.Machine

/-! ### When a handler completes, and with which state -/

/-- The check an instruction's handler makes: its address inside memory, room on the stack or a word on
it; true for an instruction that makes none. -/
def completes (i : Instr) (s : State) : Prop :=
  match i with
  | .load _ a | .store _ a => s.reg a < s.memSize
  | .storeI32 a _ => a < s.memSize
  | .push _ | .call _ => s.sp ≠ 0#32 ∧ s.sp - 1#32 < s.memSize
  | .pop _ | .ret => s.sp < s.memSize
  | .nop | .movRR _ _ | .movI16 _ _ | .add _ _ | .sub _ _ | .and _ _ | .or _ _ | .xor _ _ | .not _
  | .cmpI16 _ _ | .cmpRR _ _ | .jmp _ | .jz _ | .jnz _ | .jl _ | .jg _ | .jle _ | .jge _ | .inp _
  | .out _ | .movI32 _ _ | .addI16 _ _ | .hlt => True

/-- The state an instruction's handler answers when it completes. -/
def after (i : Instr) (s : State) : State :=
  match i with
  | .nop | .inp _ | .out _ => s
  | .hlt => s.halt
  | .movRR d r => s.setReg d (s.reg r)
  | .movI16 d k => s.setReg d (zext32 k)
  | .movI32 d l => s.setReg d l
  | .load d a => s.setReg d (s.mem.read (s.reg a).toNat)
  | .store v a => s.putWord (s.reg a) (s.reg v)
  | .storeI32 a v => s.putWord a v
  | .add d r => s.aluWrite .add d (s.reg r)
  | .sub d r => s.aluWrite .sub d (s.reg r)
  | .and d r => s.aluWrite .and d (s.reg r)
  | .or d r => s.aluWrite .or d (s.reg r)
  | .xor d r => s.aluWrite .xor d (s.reg r)
  | .not d => s.aluWrite .not d 0#32
  | .addI16 d k => s.aluWrite .add d (zext32 k)
  | .cmpI16 r k => s.compare (s.reg r) (zext32 k)
  | .cmpRR r q => s.compare (s.reg r) (s.reg q)
  | .jmp x => s.jumpIf true x
  | .jz x => s.jumpIf (Cond.z.holds s.flags) x
  | .jnz x => s.jumpIf (Cond.nz.holds s.flags) x
  | .jl x => s.jumpIf (Cond.l.holds s.flags) x
  | .jg x => s.jumpIf (Cond.g.holds s.flags) x
  | .jle x => s.jumpIf (Cond.le.holds s.flags) x
  | .jge x => s.jumpIf (Cond.ge.holds s.flags) x
  | .push r => (s.setSp (s.sp - 1#32)).putWord (s.sp - 1#32) (s.reg r)
  | .call x => ((s.setSp (s.sp - 1#32)).putWord (s.sp - 1#32) s.pc).setPc (zext32 x)
  | .pop r => (s.setSp (s.sp + 1#32)).setReg r (s.mem.read s.sp.toNat)
  | .ret => (s.setSp (s.sp + 1#32)).setPc (s.mem.read s.sp.toNat)

/-- A handler completes exactly when its check passes, and then with the state `after` gives. -/
theorem exec_eq_next (i : Instr) (s t : State) :
    exec i s = .next t ↔ completes i s ∧ t = after i s := by
  cases i with
  | load d a =>
    rw [exec, execLoad, finish_eq_next, Except.map_eq_ok]
    simp only [State.memRead_eq_ok, and_assoc, exists_and_left, exists_eq_left]
    exact and_congr_right fun _ => eq_comm
  | store v a => exact (finish_eq_next _ _).trans (s.memWrite_eq_ok _ _ _)
  | storeI32 a v => exact (finish_eq_next _ _).trans (s.memWrite_eq_ok _ _ _)
  | push r =>
    exact (finish_eq_next _ _).trans ((s.push_eq_ok _ _).trans and_assoc.symm)
  | call x =>
    rw [exec, execCall, finish_eq_next, Except.map_eq_ok]
    simp only [State.push_eq_ok, and_assoc, exists_and_left, exists_eq_left, completes]
    exact and_congr_right fun _ => and_congr_right fun _ => eq_comm
  | pop r =>
    rw [exec, execPop, finish_eq_next, Except.map_eq_ok]
    simp only [Prod.exists, State.pop_eq_ok, and_assoc, exists_and_left, exists_eq_left]
    exact and_congr_right fun _ => eq_comm
  | ret =>
    rw [exec, execRet, finish_eq_next, Except.map_eq_ok]
    simp only [Prod.exists, State.pop_eq_ok, and_assoc, exists_and_left, exists_eq_left]
    exact and_congr_right fun _ => eq_comm
  | nop | inp _ | out _ | hlt | movRR _ _ | movI16 _ _ | movI32 _ _ | add _ _ | sub _ _ | and _ _
  | or _ _ | xor _ _ | not _ | addI16 _ _ | cmpI16 _ _ | cmpRR _ _ | jmp _ | jz _ | jnz _ | jl _
  | jg _ | jle _ | jge _ =>
    exact ⟨fun h => ⟨trivial, (Host.Outcome.next.inj h).symm⟩, fun h => congrArg _ h.2.symm⟩

theorem exec_of_completes {i : Instr} {s : State} (h : completes i s) :
    exec i s = .next (after i s) :=
  (exec_eq_next i s _).mpr ⟨h, rfl⟩

/-! ### Results and frames of the shared operations -/

theorem State.sameRegsBut_setReg (s : State) (d : Reg) (v : Word) :
    SameRegsBut d s (s.setReg d v) :=
  fun _ hr => s.setReg_reg_ne v hr

/-- A recorded result shows in ZERO and SIGN and in no other flag (42_alu R132). -/
theorem State.flagsOf_setZS (s : State) (res : Word) : FlagsOf res s (s.setZS res) :=
  ⟨rfl, BitVec.msb_eq_getLsbD_last res, rfl, rfl, rfl, rfl⟩

theorem State.flagsOf_aluWrite (s : State) (op : AluOp) (d : Reg) (b : Word) :
    FlagsOf (alu op (s.reg d) b) s (s.aluWrite op d b) :=
  (s.setReg d (alu op (s.reg d) b)).flagsOf_setZS _

theorem State.aluWrite_reg_self (s : State) (op : AluOp) (d : Reg) (b : Word) :
    (s.aluWrite op d b).reg d = alu op (s.reg d) b :=
  s.setReg_reg_self d _

theorem State.sameRegsBut_aluWrite (s : State) (op : AluOp) (d : Reg) (b : Word) :
    SameRegsBut d s (s.aluWrite op d b) :=
  s.sameRegsBut_setReg d _

/-- Result, flags and frame of an ALU write (42_alu R132, R133). -/
theorem State.aluWrite_spec (s : State) (op : AluOp) (d : Reg) (b : Word) :
    (s.aluWrite op d b).reg d = alu op (s.reg d) b ∧
      FlagsOf (alu op (s.reg d) b) s (s.aluWrite op d b) ∧ SameRegsBut d s (s.aluWrite op d b) ∧
      SameMem s (s.aluWrite op d b) ∧ SameControl s (s.aluWrite op d b) :=
  ⟨s.aluWrite_reg_self op d b, s.flagsOf_aluWrite op d b, s.sameRegsBut_aluWrite op d b,
    fun _ => rfl, rfl, rfl, rfl, rfl⟩

/-- What an ALU write leaves in ZERO and SIGN, read from the destination (42_alu R132). -/
theorem State.aluWrite_flags_of_dest (s : State) (op : AluOp) (d : Reg) (b : Word) :
    ((s.aluWrite op d b).flags.zero = true ↔ (s.aluWrite op d b).reg d = 0#32) ∧
      (s.aluWrite op d b).flags.sign = ((s.aluWrite op d b).reg d).getLsbD 31 ∧
      SameInert s (s.aluWrite op d b) := by
  obtain ⟨hzero, hsign, hinert⟩ := s.flagsOf_aluWrite op d b
  rw [s.aluWrite_reg_self]
  exact ⟨by rw [hzero, decide_eq_true_iff], hsign, hinert⟩

/-- Result and frame of a jump (43_compare_branch R154). -/
theorem State.jumpIf_spec (s : State) (b : Bool) (x : Half) :
    (s.jumpIf b x).pc = (if b = true then BitVec.ofNat 32 x.toNat else s.pc) ∧
      SameRegs s (s.jumpIf b x) ∧ SameMem s (s.jumpIf b x) ∧ (s.jumpIf b x).flags = s.flags ∧
      (s.jumpIf b x).sp = s.sp ∧ (s.jumpIf b x).halted = s.halted ∧
      (s.jumpIf b x).memSize = s.memSize := by
  rw [State.jumpIf_pc, zext32_eq_ofNat]
  exact ⟨rfl, fun _ => s.jumpIf_reg b x _, fun _ => by rw [s.jumpIf_mem], s.jumpIf_flags b x,
    s.jumpIf_sp b x, s.jumpIf_halted b x, s.jumpIf_memSize b x⟩

/-! ### Every instruction completes, with its result and its frame -/

/-- Settles O21: each MOV is one `State.setReg`. -/
theorem movesComplete : Obligations.MovesComplete := by
  intro s d r k l
  have hset (v : Word) : (s.setReg d v).reg d = v ∧ SameRegsBut d s (s.setReg d v) ∧
      SameMem s (s.setReg d v) ∧ (s.setReg d v).flags = s.flags ∧ SameControl s (s.setReg d v) :=
    ⟨s.setReg_reg_self d v, s.sameRegsBut_setReg d v, fun _ => rfl, rfl, rfl, rfl, rfl, rfl⟩
  simp only [List.forall_mem_cons, ← zext32_eq_ofNat]
  exact ⟨⟨_, rfl, hset _⟩, ⟨_, rfl, hset _⟩, ⟨_, rfl, hset _⟩, nofun⟩

/-- Settles O22: inside memory LOAD is one `State.setReg` with the word read. -/
theorem loadCompletes : Obligations.LoadCompletes := fun s d _ h =>
  ⟨_, exec_load_inside d h, s.setReg_reg_self d _, s.sameRegsBut_setReg d _, fun _ => rfl, rfl, rfl,
    rfl, rfl, rfl⟩

/-- Settles O23: inside memory each STORE is one `State.putWord`. -/
theorem storesComplete : Obligations.StoresComplete := by
  intro s v a addr value
  have hput (b w : Word) : (s.putWord b w).mem.read b.toNat = w ∧ SameMemBut b s (s.putWord b w) ∧
      SameRegs s (s.putWord b w) ∧ (s.putWord b w).flags = s.flags ∧
      SameControl s (s.putWord b w) :=
    ⟨s.mem.read_write_self _ w, s.sameMemBut_putWord b w, fun _ => rfl, rfl, rfl, rfl, rfl, rfl⟩
  simp only [List.forall_mem_cons]
  exact ⟨fun h => ⟨_, exec_of_completes (i := .store v a) h, hput _ _⟩,
    fun h => ⟨_, exec_of_completes (i := .storeI32 addr value) h, hput _ _⟩, nofun⟩

/-- Settles O24: each of the seven is one `State.aluWrite`. -/
theorem aluInstructionsComplete : Obligations.AluInstructionsComplete := by
  intro s d r k
  simp only [List.forall_mem_cons, ← zext32_eq_ofNat]
  exact ⟨⟨_, rfl, s.aluWrite_spec .add d _⟩, ⟨_, rfl, s.aluWrite_spec .sub d _⟩,
    ⟨_, rfl, s.aluWrite_spec .and d _⟩, ⟨_, rfl, s.aluWrite_spec .or d _⟩,
    ⟨_, rfl, s.aluWrite_spec .xor d _⟩, ⟨_, rfl, s.aluWrite_spec .not d 0#32⟩,
    ⟨_, rfl, s.aluWrite_spec .add d _⟩, nofun⟩

/-- Settles O32: ZERO and SIGN of the result, which is what the destination then holds. -/
theorem aluFlagsFollowTheResult : Obligations.AluFlagsFollowTheResult := by
  intro s d r k
  simp only [List.forall_mem_cons]
  exact ⟨⟨_, rfl, s.aluWrite_flags_of_dest .add d _⟩, ⟨_, rfl, s.aluWrite_flags_of_dest .sub d _⟩,
    ⟨_, rfl, s.aluWrite_flags_of_dest .and d _⟩, ⟨_, rfl, s.aluWrite_flags_of_dest .or d _⟩,
    ⟨_, rfl, s.aluWrite_flags_of_dest .xor d _⟩, ⟨_, rfl, s.aluWrite_flags_of_dest .not d 0#32⟩,
    ⟨_, rfl, s.aluWrite_flags_of_dest .add d _⟩, nofun⟩

/-- Settles O25: each compare is one `State.setZS` with the difference. -/
theorem comparesComplete : Obligations.ComparesComplete := by
  intro s r q k
  have hcmp (a b : Word) : FlagsOf (a - b) s (s.compare a b) ∧ SameRegs s (s.compare a b) ∧
      SameMem s (s.compare a b) ∧ SameControl s (s.compare a b) :=
    ⟨s.flagsOf_setZS (a - b), fun _ => rfl, fun _ => rfl, rfl, rfl, rfl, rfl⟩
  simp only [List.forall_mem_cons, ← zext32_eq_ofNat]
  exact ⟨⟨_, rfl, hcmp _ _⟩, ⟨_, rfl, hcmp _ _⟩, nofun⟩

/-- Settles O26: each jump is one `State.jumpIf` on its condition. -/
theorem jumpsComplete : Obligations.JumpsComplete := by
  intro s x
  simp only [List.forall_mem_cons]
  exact ⟨⟨_, rfl, s.jumpIf_spec true x⟩, ⟨_, rfl, s.jumpIf_spec (Cond.z.holds s.flags) x⟩,
    ⟨_, rfl, s.jumpIf_spec (Cond.nz.holds s.flags) x⟩,
    ⟨_, rfl, s.jumpIf_spec (Cond.l.holds s.flags) x⟩,
    ⟨_, rfl, s.jumpIf_spec (Cond.g.holds s.flags) x⟩,
    ⟨_, rfl, s.jumpIf_spec (Cond.le.holds s.flags) x⟩,
    ⟨_, rfl, s.jumpIf_spec (Cond.ge.holds s.flags) x⟩, nofun⟩

/-- Settles O27: with room below it the moved `sp` names a word inside memory, and both store there;
CALL then moves `pc`. -/
theorem pushAndCallComplete : Obligations.PushAndCallComplete := by
  intro s r x h0 hsp
  have hroom : s.sp ≠ 0#32 ∧ s.sp - 1#32 < s.memSize :=
    ⟨h0, s.pushSlot_lt h0 (of_decide_eq_true hsp)⟩
  simp only [List.forall_mem_cons, ← zext32_eq_ofNat]
  exact ⟨⟨_, exec_of_completes (i := .push r) hroom, rfl, Memory.read_write_self _ _ _,
      State.sameMemBut_putWord _ _ _, rfl, fun _ => rfl, rfl, rfl, rfl⟩,
    ⟨_, exec_of_completes (i := .call x) hroom, rfl, Memory.read_write_self _ _ _,
      State.sameMemBut_putWord _ _ _, rfl, fun _ => rfl, rfl, rfl, rfl⟩, nofun⟩

/-- Settles O28: the popped word goes to a register (POP) or to `pc` (RET). -/
theorem popAndRetComplete : Obligations.PopAndRetComplete := by
  intro s r h
  constructor
  · exact ⟨_, exec_pop_of_nonempty r h, State.setReg_reg_self _ _ _, rfl,
      State.sameRegsBut_setReg _ _ _, rfl, fun _ => rfl, rfl, rfl, rfl⟩
  · exact ⟨_, exec_of_completes (i := .ret) h, rfl, rfl, fun _ => rfl, fun _ => rfl, rfl, rfl, rfl⟩

/-- Settles O29: three leave the state alone and HLT is `State.halt`. -/
theorem systemInstructionsComplete : Obligations.SystemInstructionsComplete := by
  intro s r
  simp only [List.forall_mem_cons]
  exact ⟨⟨_, exec_nop s, rfl, fun _ => rfl, fun _ => rfl, rfl, rfl, rfl, rfl⟩,
    ⟨_, exec_inp r s, rfl, fun _ => rfl, fun _ => rfl, rfl, rfl, rfl, rfl⟩,
    ⟨_, exec_out r s, rfl, fun _ => rfl, fun _ => rfl, rfl, rfl, rfl, rfl⟩,
    ⟨_, exec_of_completes (i := .hlt) trivial, rfl, fun _ => rfl, fun _ => rfl, rfl, rfl, rfl, rfl⟩,
    nofun⟩

/-! ### When a handler faults -/

theorem State.memRead_fault_iff (s : State) (a : Word) (f : Fault) :
    s.memRead a = .error f ↔ s.memSize ≤ a ∧ f = .memoryAccessError a s := by
  rw [s.memRead_eq_error, BitVec.not_lt]

theorem State.memWrite_fault_iff (s : State) (a v : Word) (f : Fault) :
    s.memWrite a v = .error f ↔ s.memSize ≤ a ∧ f = .memoryAccessError a s := by
  rw [s.memWrite_eq_error, BitVec.not_lt]

/-- With `sp <= MEM_SIZE` a push can only overflow. -/
theorem State.push_fault_iff {s : State} (hsp : s.sp ≤ s.memSize) (v : Word) (f : Fault) :
    s.push v = .error f ↔ s.sp = 0#32 ∧ f = .stackError .overflow s := by
  rw [s.push_eq_error]
  refine or_iff_left ?_
  rintro ⟨h0, hslot, -⟩
  exact hslot (s.pushSlot_lt h0 hsp)

/-- With `sp <= MEM_SIZE` a pop fails exactly at `sp = MEM_SIZE`. -/
theorem State.pop_fault_iff {s : State} (hsp : s.sp ≤ s.memSize) (f : Fault) :
    s.pop = .error f ↔ s.sp = s.memSize ∧ f = .stackError .underflow s := by
  have hend : ¬ s.sp < s.memSize ↔ s.sp = s.memSize := by bv_omega
  rw [s.pop_eq_error, hend]

/-- Settles O30: a handler with a check faults as its shared operation does, and no other can. -/
theorem faultsOfEachInstruction : Obligations.FaultsOfEachInstruction := by
  intro i s f hok
  have hsp : s.sp ≤ s.memSize := of_decide_eq_true hok
  cases i with
  | load d a =>
    exact (finish_eq_fault _ f).trans ((Except.map_eq_error _ _ f).trans (s.memRead_fault_iff _ f))
  | store v a => exact (finish_eq_fault _ f).trans (s.memWrite_fault_iff _ _ f)
  | storeI32 a v => exact (finish_eq_fault _ f).trans (s.memWrite_fault_iff _ _ f)
  | push r => exact (finish_eq_fault _ f).trans (State.push_fault_iff hsp _ f)
  | call x =>
    exact (finish_eq_fault _ f).trans
      ((Except.map_eq_error _ _ f).trans (State.push_fault_iff hsp _ f))
  | pop r =>
    exact (finish_eq_fault _ f).trans
      ((Except.map_eq_error _ _ f).trans (State.pop_fault_iff hsp f))
  | ret =>
    exact (finish_eq_fault _ f).trans
      ((Except.map_eq_error _ _ f).trans (State.pop_fault_iff hsp f))
  | nop | inp _ | out _ | hlt | movRR _ _ | movI16 _ _ | movI32 _ _ | add _ _ | sub _ _ | and _ _
  | or _ _ | xor _ _ | not _ | addI16 _ _ | cmpI16 _ _ | cmpRR _ _ | jmp _ | jz _ | jnz _ | jl _
  | jg _ | jle _ | jge _ => exact ⟨nofun, False.elim⟩

/-! ### Whole-machine rules -/

/-- Settles O34: the writes go to the destination, and no other instruction writes a register. -/
theorem onlyTheDestinationRegisterChanges : Obligations.OnlyTheDestinationRegisterChanges := by
  intro i s t h r hr
  obtain ⟨-, rfl⟩ := (exec_eq_next i s t).mp h
  have hother {d : Reg} (hd : i.dest = some d) : r ≠ d := fun e => hr (by rw [hd, e])
  cases i with
  | movRR d _ | movI16 d _ | movI32 d _ | load d _ => exact s.sameRegsBut_setReg d _ r (hother rfl)
  | pop d => exact (s.setSp _).sameRegsBut_setReg d _ r (hother rfl)
  | add d _ | sub d _ | and d _ | or d _ | xor d _ | not d | addI16 d _ =>
    exact s.sameRegsBut_aluWrite _ d _ r (hother rfl)
  | jmp x | jz x | jnz x | jl x | jg x | jle x | jge x => exact s.jumpIf_reg _ x r
  | nop | store _ _ | storeI32 _ _ | cmpI16 _ _ | cmpRR _ _ | call _ | ret | push _ | inp _ | out _
  | hlt => rfl

/-- Settles O35: the seven ALU writes and the two compares record their results, the jumps and the
others leave all flags. -/
theorem onlyAluAndComparesWriteFlags : Obligations.OnlyAluAndComparesWriteFlags := by
  intro i s t h
  obtain ⟨-, rfl⟩ := (exec_eq_next i s t).mp h
  simp only [← zext32_eq_ofNat]
  cases i with
  | add d r => exact s.flagsOf_aluWrite .add d _
  | sub d r => exact s.flagsOf_aluWrite .sub d _
  | and d r => exact s.flagsOf_aluWrite .and d _
  | or d r => exact s.flagsOf_aluWrite .or d _
  | xor d r => exact s.flagsOf_aluWrite .xor d _
  | not d => exact s.flagsOf_aluWrite .not d 0#32
  | addI16 d k => exact s.flagsOf_aluWrite .add d _
  | cmpI16 r k => exact s.flagsOf_setZS _
  | cmpRR r q => exact s.flagsOf_setZS _
  | jmp x | jz x | jnz x | jl x | jg x | jle x | jge x => exact s.jumpIf_flags _ x
  | nop | movRR _ _ | movI16 _ _ | movI32 _ _ | load _ _ | store _ _ | storeI32 _ _ | call _ | ret
  | push _ | pop _ | inp _ | out _ | hlt => rfl

/-- Settles O38: the stack's checks are what keeps the two moves of `sp` from wrapping. -/
theorem onlyStackInstructionsMoveSp : Obligations.OnlyStackInstructionsMoveSp := by
  intro i s t h
  obtain ⟨hcheck, rfl⟩ := (exec_eq_next i s t).mp h
  have hdown (h0 : s.sp ≠ 0#32) : 0 < s.sp.toNat ∧ (s.sp - 1#32).toNat + 1 = s.sp.toNat := by
    bv_omega
  have hup (hlt : s.sp < s.memSize) :
      s.sp.toNat < s.memSize.toNat ∧ (s.sp + 1#32).toNat = s.sp.toNat + 1 := by bv_omega
  cases i with
  | push _ | call _ => exact hdown hcheck.1
  | pop _ | ret => exact hup hcheck
  | jmp x | jz x | jnz x | jl x | jg x | jle x | jge x => exact s.jumpIf_sp _ x
  | nop | movRR _ _ | movI16 _ _ | movI32 _ _ | load _ _ | store _ _ | storeI32 _ _ | add _ _
  | sub _ _ | and _ _ | or _ _ | xor _ _ | not _ | addI16 _ _ | cmpI16 _ _ | cmpRR _ _ | inp _
  | out _ | hlt => rfl

/-- HLT sets `halted` and every other instruction leaves it (10_state R37). -/
theorem after_halted (i : Instr) (s : State) : (after i s).halted = (s.halted || i == .hlt) := by
  cases i with
  | hlt => exact (Bool.or_true _).symm
  | jmp x | jz x | jnz x | jl x | jg x | jle x | jge x =>
    exact (s.jumpIf_halted _ x).trans (Bool.or_false _).symm
  | nop | movRR _ _ | movI16 _ _ | movI32 _ _ | load _ _ | store _ _ | storeI32 _ _ | add _ _
  | sub _ _ | and _ _ | or _ _ | xor _ _ | not _ | addI16 _ _ | cmpI16 _ _ | cmpRR _ _ | call _
  | ret | push _ | pop _ | inp _ | out _ => exact (Bool.or_false _).symm

/-- Settles O39: `halted` of the state a completed handler answers. -/
theorem onlyHltSetsHalted : Obligations.OnlyHltSetsHalted := by
  intro i s t h
  obtain ⟨-, rfl⟩ := (exec_eq_next i s t).mp h
  exact after_halted i s

/-- Settles O41: the four writes are `State.putWord` behind their checks. -/
theorem onlyStoresWriteMemory : Obligations.OnlyStoresWriteMemory := by
  intro i s t h
  obtain ⟨hcheck, rfl⟩ := (exec_eq_next i s t).mp h
  cases i with
  | store _ _ | storeI32 _ _ => exact ⟨hcheck, s.sameMemBut_putWord _ _⟩
  | push _ | call _ => exact ⟨hcheck.2, (s.setSp _).sameMemBut_putWord _ _⟩
  | jmp x | jz x | jnz x | jl x | jg x | jle x | jge x =>
    exact fun a => congrArg (·.read a) (s.jumpIf_mem _ x)
  | nop | movRR _ _ | movI16 _ _ | movI32 _ _ | load _ _ | add _ _ | sub _ _ | and _ _ | or _ _
  | xor _ _ | not _ | addI16 _ _ | cmpI16 _ _ | cmpRR _ _ | ret | pop _ | inp _ | out _ | hlt =>
    exact fun _ => rfl

end Sys2Proof.Machine

/-! PROOFS. The ALU in exact arithmetic, the meaning of the flags after CMP, the jump conditions among
each other, and pairs of instructions: PUSH with POP, CALL with RET, STORE with fetch
(42_alu R130, R131, 43_compare_branch, 44_stack_call, 20_memory R66). -/

namespace Sys2Proof.Machine

/-! ### The ALU -/

/-- A sum narrowed to 32 bits drops at most one carry (42_alu R131). -/
theorem toNat_add_eq_ite (a b : Word) :
    (a + b).toNat = if a.toNat + b.toNat < 2 ^ 32 then a.toNat + b.toNat
      else a.toNat + b.toNat - 2 ^ 32 := by
  split <;> bv_omega

/-- A difference narrowed to 32 bits borrows at most once (42_alu R131). -/
theorem toNat_sub_eq_ite (a b : Word) :
    (a - b).toNat = if b.toNat ≤ a.toNat then a.toNat - b.toNat
      else a.toNat + 2 ^ 32 - b.toNat := by
  split <;> bv_omega

/-- Settles O44: the word operations as numbers and bit by bit. -/
theorem aluIsWraparoundArithmetic : Obligations.AluIsWraparoundArithmetic := by
  intro a b
  refine ⟨toNat_add_eq_ite a b, toNat_sub_eq_ite a b, BitVec.toNat_not, fun k _ => ⟨?_, ?_, ?_⟩⟩
  · exact BitVec.getLsbD_and
  · exact BitVec.getLsbD_or
  · exact BitVec.getLsbD_xor

/-! ### Compare -/

theorem toInt_bounds (a : Word) : -(2 ^ 31) ≤ a.toInt ∧ a.toInt < 2 ^ 31 :=
  ⟨BitVec.le_toInt a, BitVec.toInt_lt⟩

/-- The exact signed difference lies within two moduli, so narrowing it adds or takes away 2^32 at most
once. -/
theorem toInt_sub_eq_ite (a b : Word) :
    (a - b).toInt = if a.toInt - b.toInt < -(2 ^ 31) then a.toInt - b.toInt + 2 ^ 32
      else if a.toInt - b.toInt < 2 ^ 31 then a.toInt - b.toInt
      else a.toInt - b.toInt - 2 ^ 32 := by
  have ha := toInt_bounds a
  have hb := toInt_bounds b
  rw [BitVec.toInt_sub, Int.bmod_def]
  split_ifs <;> omega

/-- Settles O45: ZERO and SIGN are those of the narrowed difference, whose sign is that of the exact one
unless narrowing moved it by 2^32. -/
theorem compareFlagsReadAsSigned : Obligations.CompareFlagsReadAsSigned := by
  intro s t p q h
  obtain ⟨-, rfl⟩ := (exec_eq_next _ s t).mp h
  have hzero : (after (.cmpRR p q) s).flags.zero = true ↔ s.reg p = s.reg q :=
    beq_iff_eq.trans sub_eq_zero
  have hsign : (after (.cmpRR p q) s).flags.sign = true ↔ (s.reg p - s.reg q).toInt < 0 := by
    have hmsb : (after (.cmpRR p q) s).flags.sign = (s.reg p - s.reg q).msb := rfl
    rw [hmsb, BitVec.msb_eq_toInt, decide_eq_true_iff]
  have hp := toInt_bounds (s.reg p)
  have hq := toInt_bounds (s.reg q)
  rw [toInt_sub_eq_ite] at hsign
  refine ⟨hzero, fun hfits => hsign.trans ?_, fun hover => hsign.trans ?_⟩
  · split_ifs <;> omega
  · split_ifs <;> omega

/-- Settles O46: the conditions are Boolean combinations of ZERO and SIGN, so four cases decide. -/
theorem jumpConditionsRelated : Obligations.JumpConditionsRelated := by
  intro f
  have hcases : ∀ n z : Bool, (n || z) = !(!n && !z) ∧
      ((!(z && n)) = true → (!n || z) = !n) ∧
      ((!(z && n)) = false → (!n || z) = true ∧ n = true) := by decide
  exact hcases f.sign f.zero

/-! ### PUSH and POP -/

/-- Settles O47: the two slots are distinct words inside memory, so each pop reads what its push
stored. -/
theorem stackIsLastInFirstOut : Obligations.StackIsLastInFirstOut := by
  intro s p q a b hok h2 hab
  have hsp : s.sp ≤ s.memSize := of_decide_eq_true hok
  have h0 : s.sp ≠ 0#32 := by bv_omega
  have h1 : s.sp - 1#32 ≠ 0#32 := by bv_omega
  have hok1 : s.sp - 1#32 ≤ s.memSize := by bv_omega
  have htop : s.sp - 1#32 - 1#32 < s.memSize := by bv_omega
  have hback : s.sp - 1#32 - 1#32 + 1#32 = s.sp - 1#32 := BitVec.sub_add_cancel _ _
  have hnext : s.sp - 1#32 - 1#32 + 1#32 < s.memSize := by bv_omega
  have hslots : (s.sp - 1#32).toNat ≠ (s.sp - 1#32 - 1#32).toNat := by bv_omega
  refine ⟨_, _, _, _, exec_push_of_room p hok h0, exec_push_of_room q (decide_eq_true hok1) h1,
    exec_pop_of_nonempty a htop, exec_pop_of_nonempty b hnext, ?_, ?_, ?_⟩
  · rw [State.setReg_reg_ne _ _ hab, State.setSp_reg, State.setReg_reg_self]
    exact Memory.read_write_self _ _ _
  · rw [State.setReg_reg_self]
    simp only [State.setReg_mem, State.setSp_mem, State.putWord_mem, State.setReg_sp,
      State.setSp_sp, State.putWord_sp, hback]
    rw [Memory.read_write_ne _ _ hslots, Memory.read_write_self]
  · simp only [State.setReg_sp, State.setSp_sp, State.putWord_sp, BitVec.sub_add_cancel]

/-! ### CALL and RET -/

/-- Settles O48: RET pops the word CALL stored, and the two moves of `sp` cancel. -/
theorem retReturnsAfterCall : Obligations.RetReturnsAfterCall := by
  intro s t u x h hsp hsize hword
  obtain ⟨⟨-, hslot⟩, rfl⟩ := (exec_eq_next _ s t).mp h
  have husp : u.sp = s.sp - 1#32 := hsp
  have husize : u.memSize = s.memSize := hsize
  have hready : u.sp < u.memSize := by rw [husp, husize]; exact hslot
  have hpopped : u.mem.read u.sp.toNat = s.pc := by
    rw [hsp, hword]
    exact Memory.read_write_self _ _ _
  refine ⟨_, exec_of_completes (i := .ret) hready, hpopped, ?_, fun _ => rfl, fun _ => rfl, rfl⟩
  calc u.sp + 1#32 = s.sp - 1#32 + 1#32 := by rw [husp]
    _ = s.sp := BitVec.sub_add_cancel _ _

/-! ### STORE and the next fetch -/

/-- Settles O49: the word put at `pc` is the word read there. -/
theorem storedWordIsFetched : Obligations.StoredWordIsFetched := by
  intro s t v a hrun h hpc
  obtain ⟨hin, rfl⟩ := (exec_eq_next _ s t).mp h
  refine ⟨hrun, ?_⟩
  rw [hpc]
  exact s.putWord_memRead_self (s.reg v) hin

end Sys2Proof.Machine

/-! PROOFS. The step from the words at `pc`: fetch, literals, the two kinds of words without an
instruction, HLT, `pc` after a step, what sets `halted` and what an error leaves
(40_step_cycle R100 to R112, 45_system, 60_exceptions). -/

namespace Sys2Proof.Machine

/-! ### The fetch of a running engine -/

theorem State.fetches_of_lt {s : State} (hrun : s.halted = false) (h : s.pc < s.memSize) :
    s.Fetches (s.mem.read s.pc.toNat) :=
  ⟨hrun, (s.memRead_eq_ok _ _).mpr ⟨h, rfl⟩⟩

theorem State.Fetches.word_eq {s : State} {w : Word} (h : s.Fetches w) :
    w = s.mem.read s.pc.toNat :=
  ((s.memRead_eq_ok _ _).mp h.2).2

theorem State.Fetches.fetch_eq {s : State} {w : Word} (h : s.Fetches w) :
    s.fetch = s.fetchRest w := by
  obtain ⟨hrun, hread⟩ := h
  simp [State.fetch, hrun, hread]

theorem step_of_fetch_run {s t : State} {i : Instr} (h : s.fetch = .run i t) :
    step s = exec i t := by
  simp [step, h]

theorem step_of_fetch_stop {s : State} {f : Fault} (h : s.fetch = .stop f) : step s = .fault f := by
  simp [step, h]

theorem step_of_fetch_reserved {s : State} {w a : Word} (h : s.fetch = .reserved w a) :
    step s = .refused (.reservedEncoding w a) := by
  simp [step, h]

/-- Settles O8: the halted test comes first. -/
theorem haltedStepChangesNothing : Obligations.HaltedStepChangesNothing := by
  intro s h
  simp [step, State.fetch, h]

/-- Settles O9: the fetch itself is a checked memory read. -/
theorem fetchOutsideMemoryRaises : Obligations.FetchOutsideMemoryRaises := by
  intro s hrun h
  have hread : s.memRead s.pc = .error (.memoryAccessError s.pc s) :=
    (s.memRead_fault_iff _ _).mpr ⟨h, rfl⟩
  exact step_of_fetch_stop (by simp [State.fetch, hrun, hread])

/-! ### Literals -/

theorem State.fetchLiteral_inside {s : State} {l : Word} (d : Reg)
    (h : s.memRead (s.pc + 1#32) = .ok l) :
    s.fetchLiteral d = .run (.movI32 d l) (s.setPc (s.pc + 2#32)) := by
  simp [State.fetchLiteral, (s.setPc_memRead_ok _ _ _).mpr h]

theorem State.fetchLiteral_outside {s : State} (d : Reg) (h : s.memSize ≤ s.pc + 1#32) :
    s.fetchLiteral d =
      .stop (.memoryAccessError (s.pc + 1#32) (s.setPc (s.pc + 1#32))) := by
  have hread := ((s.setPc (s.pc + 1#32)).memRead_fault_iff (s.pc + 1#32) _).mpr ⟨h, rfl⟩
  simp [State.fetchLiteral, hread]

theorem State.fetchTwoLiterals_inside {s : State} {a v : Word}
    (ha : s.memRead (s.pc + 1#32) = .ok a) (hv : s.memRead (s.pc + 2#32) = .ok v) :
    s.fetchTwoLiterals = .run (.storeI32 a v) (s.setPc (s.pc + 3#32)) := by
  simp [State.fetchTwoLiterals, ha, hv]

theorem State.fetchTwoLiterals_first_outside {s : State} (h : s.memSize ≤ s.pc + 1#32) :
    s.fetchTwoLiterals = .stop (.memoryAccessError (s.pc + 1#32) s) := by
  simp [State.fetchTwoLiterals, (s.memRead_fault_iff _ _).mpr ⟨h, rfl⟩]

theorem State.fetchTwoLiterals_second_outside {s : State} (h1 : s.pc + 1#32 < s.memSize)
    (h2 : s.memSize ≤ s.pc + 2#32) :
    s.fetchTwoLiterals = .stop (.memoryAccessError (s.pc + 2#32) s) := by
  simp [State.fetchTwoLiterals, (s.memRead_eq_ok _ _).mpr ⟨h1, rfl⟩,
    (s.memRead_fault_iff _ _).mpr ⟨h2, rfl⟩]

/-- Settles O10: the literal just past the end has the address MEM_SIZE. -/
theorem literalOutsideMemoryRaises : Obligations.LiteralOutsideMemoryRaises := by
  intro s w hf
  constructor
  · intro d hd hend
    have hpc : s.pc + 1#32 = s.memSize := by bv_omega
    refine step_of_fetch_stop ?_
    rw [hf.fetch_eq, State.fetchRest, hd]
    exact (State.fetchLiteral_outside d (BitVec.le_of_eq hpc.symm)).trans (by rw [hpc])
  · rintro hd (hend | hend)
    · have hpc : s.pc + 1#32 = s.memSize := by bv_omega
      refine step_of_fetch_stop ?_
      rw [hf.fetch_eq, State.fetchRest, hd]
      exact (State.fetchTwoLiterals_first_outside (BitVec.le_of_eq hpc.symm)).trans (by rw [hpc])
    · have hfirst : s.pc + 1#32 < s.memSize := by bv_omega
      have hpc : s.pc + 2#32 = s.memSize := by bv_omega
      have hstop := State.fetchTwoLiterals_second_outside hfirst (BitVec.le_of_eq hpc.symm)
      refine step_of_fetch_stop ?_
      rw [hf.fetch_eq, State.fetchRest, hd]
      exact hstop.trans (by rw [hpc])

/-! ### Words without an instruction -/

theorem State.Fetches.step_unknown {s : State} {w : Word} (hf : s.Fetches w)
    (h : formatOf (opcodeOf w) = none) : step s = .fault (s.softHalt (opcodeOf w)) := by
  refine step_of_fetch_stop ?_
  rw [hf.fetch_eq, State.fetchRest, decodeHeader_of_formatOf_none w h]

/-- Settles O11: the soft halt's state is the state with `pc` advanced and `halted` set. -/
theorem unknownOpcodeHaltsSoftly : Obligations.UnknownOpcodeHaltsSoftly := fun _ _ hf hnone =>
  ⟨_, hf.step_unknown hnone, rfl, rfl, rfl, rfl, rfl, fun _ => rfl, fun _ => rfl⟩

/-- Settles O12: the reserved test comes before any literal is read. -/
theorem reservedWordIsRefused : Obligations.ReservedWordIsRefused := by
  intro s w hf hd
  refine step_of_fetch_reserved ?_
  rw [hf.fetch_eq, State.fetchRest, hd]

/-! ### HLT -/

theorem decodeHeader_hlt {w : Word} (h : opcodeOf w = 0xFF#8) :
    decodeHeader w = .complete .hlt := by
  simp [decodeHeader, h]

theorem State.Fetches.step_hlt {s : State} {w : Word} (hf : s.Fetches w)
    (hop : opcodeOf w = 0xFF#8) : step s = .next (s.setPc (s.pc + 1#32)).halt :=
  (hf.step_complete (decodeHeader_hlt hop)).trans (exec_of_completes (i := .hlt) trivial)

/-- Settles O20: the step is `State.halt` after the advance of `pc`, and a halted engine stays. -/
theorem hltStep : Obligations.HltStep := by
  intro s w hf hop
  have hstep := hf.step_hlt hop
  refine ⟨by rw [hstep]; rfl, _, hstep, rfl, rfl, fun _ => rfl, fun _ => rfl, rfl, rfl, rfl, ?_⟩
  exact haltedStepChangesNothing _ rfl

/-! ### From the words at `pc` to the handler -/

/-- A run of words at an address outside memory is empty. -/
theorem State.wordsAt_outside {s : State} {a : Word} (h : ¬ a < s.memSize) (n : Nat) :
    s.wordsAt a n = [] := by
  cases n with
  | zero => rfl
  | succ n => simp [State.wordsAt, (s.memRead_eq_error _ _).mpr ⟨h, rfl⟩]

/-- Where a run of words does not come out empty, it begins with the word at its address. -/
theorem State.wordsAt_eq_cons {s : State} {a w : Word} {n : Nat} {ws : List Word}
    (h : s.wordsAt a (n + 1) = w :: ws) : s.memRead a = .ok w ∧ s.wordsAt (a + 1#32) n = ws := by
  by_cases ha : a < s.memSize
  · have hread := (s.memRead_eq_ok a _).mpr ⟨ha, rfl⟩
    rw [s.wordsAt_succ n a _ hread] at h
    cases h
    exact ⟨hread, rfl⟩
  · rw [State.wordsAt_outside ha] at h
    cases h

/-- If the words at `pc` decode to an instruction, the fetch of a running engine hands it to its
handler. -/
theorem State.fetch_of_decode {s : State} {i : Instr} {rest : List Word} (hrun : s.halted = false)
    (h : decode (s.wordsAt s.pc 3) = .instr i rest) :
    s.fetch = .run i (s.setPc (s.pc + BitVec.ofNat 32 i.words)) := by
  cases hw : s.wordsAt s.pc 3 with
  | nil => simp [hw, decode] at h
  | cons w ws =>
    obtain ⟨hread, hws⟩ := State.wordsAt_eq_cons hw
    have hf : s.Fetches w := ⟨hrun, hread⟩
    rw [hw] at h
    rw [hf.fetch_eq, State.fetchRest]
    obtain ⟨hd, -⟩ | ⟨d, l, hd, rfl, rfl⟩ | ⟨a, v, hd, rfl, rfl⟩ := decode_eq_instr h
    · rw [hd, words_of_complete w i hd]
    · obtain ⟨hl, -⟩ := State.wordsAt_eq_cons hws
      rw [hd]
      exact State.fetchLiteral_inside d hl
    · obtain ⟨ha, hws⟩ := State.wordsAt_eq_cons hws
      obtain ⟨hv, -⟩ := State.wordsAt_eq_cons hws
      rw [BitVec.add_assoc] at hv
      rw [hd]
      exact State.fetchTwoLiterals_inside ha hv

/-- Settles O7: the fetch hands the decoded instruction over. -/
theorem stepRunsTheDecodedInstruction : Obligations.StepRunsTheDecodedInstruction :=
  fun _ _ _ hrun h => step_of_fetch_run (State.fetch_of_decode hrun h)

/-! ### `pc` never wraps -/

/-- The words of an instruction are those consumed by decoding it. -/
theorem length_of_decode {ws rest : List Word} {i : Instr} (h : decode ws = .instr i rest) :
    ws.length = i.words + rest.length := by
  cases ws with
  | nil => cases h
  | cons w ws =>
    obtain ⟨hd, rfl⟩ | ⟨d, l, -, rfl, rfl⟩ | ⟨a, v, -, rfl, rfl⟩ := decode_eq_instr h
    · rw [words_of_complete w i hd, List.length_cons, Nat.add_comm]
    · simp only [List.length_cons, Instr.words]
      omega
    · simp only [List.length_cons, Instr.words]
      omega

/-- A run of words that is read in full lies inside memory. -/
theorem State.add_le_memSize_of_wordsAt {s : State} {n : Nat} {a : Word}
    (h : (s.wordsAt a (n + 1)).length = n + 1) : a.toNat + (n + 1) ≤ s.memSize.toNat := by
  induction n generalizing a with
  | zero =>
    by_contra hout
    have ha : ¬ a < s.memSize := by bv_omega
    simp [State.wordsAt_outside ha] at h
  | succ n ih =>
    cases hw : s.wordsAt a (n + 1 + 1) with
    | nil => simp [hw] at h
    | cons w ws =>
      obtain ⟨hread, hws⟩ := State.wordsAt_eq_cons hw
      have ha := ((s.memRead_eq_ok a w).mp hread).1
      have hrest := ih (a := a + 1#32) (by simpa [hw, ← hws] using h)
      have hnext : (a + 1#32).toNat = a.toNat + 1 := by bv_omega
      omega

theorem words_pos (i : Instr) : 0 < i.words := by
  cases i <;> exact Nat.succ_pos _

/-- A fetched instruction ends at or below MEM_SIZE, so the advance of `pc` is a sum of numbers. -/
theorem State.fetch_run_pc {s t : State} {i : Instr} (h : s.fetch = .run i t) :
    t.pc.toNat = s.pc.toNat + i.words ∧ t.pc.toNat ≤ s.memSize.toNat := by
  obtain ⟨-, -, rfl, hdec⟩ := s.fetch_run t i h
  have hlen := length_of_decode hdec
  obtain ⟨n, hn⟩ := Nat.exists_eq_add_one.mpr (words_pos i)
  rw [hn] at hlen ⊢
  have hfit := State.add_le_memSize_of_wordsAt hlen
  have hsize : s.memSize.toNat < 2 ^ 32 := s.memSize.isLt
  have hsum : (s.pc + BitVec.ofNat 32 (n + 1)).toNat = s.pc.toNat + (n + 1) := by
    rw [BitVec.toNat_add, BitVec.toNat_ofNat]
    omega
  rw [State.setPc_pc, hsum]
  exact ⟨rfl, hfit⟩

/-- Settles O55: the words of a fetched instruction were all read. -/
theorem fetchNeverWraps : Obligations.FetchNeverWraps := fun _ _ _ => State.fetch_run_pc

end Sys2Proof.Machine

/-! PROOFS. What a whole step does to `pc` and to `halted`, what an error leaves, and when a run ends
successfully (10_state R26, R37, 40_step_cycle R109, R112, R114). -/

namespace Sys2Proof.Machine

/-! ### `pc` after a step -/

/-- A jump whose condition says that `P` holds goes to its target where `P` does. -/
theorem State.jumpIf_pc_toNat (s : State) (x : Half) {b : Bool} {P : Prop} [Decidable P]
    (hb : b = true ↔ P) : (s.jumpIf b x).pc.toNat = if P then x.toNat else s.pc.toNat := by
  rw [s.jumpIf_pc, apply_ite BitVec.toNat, zext32_toNat]
  exact if_congr hb rfl rfl

/-- Settles O13: `pc` is past the words, a sum of numbers (`State.fetch_run_pc`), and of the handlers
only the jumps, CALL and RET move it. -/
theorem programCounterAfterEachInstruction : Obligations.ProgramCounterAfterEachInstruction := by
  intro s t i rest hrun hdec hstep
  have hfetch := State.fetch_of_decode hrun hdec
  obtain ⟨hpc, -⟩ := State.fetch_run_pc hfetch
  rw [step_of_fetch_run hfetch] at hstep
  obtain ⟨-, rfl⟩ := (exec_eq_next i _ t).mp hstep
  cases i with
  | jz x => exact (State.jumpIf_pc_toNat _ x (Cond.holds_z_iff _)).trans (by rw [hpc]; rfl)
  | jnz x => exact (State.jumpIf_pc_toNat _ x (Cond.holds_nz_iff _)).trans (by rw [hpc]; rfl)
  | jl x => exact (State.jumpIf_pc_toNat _ x (Cond.holds_l_iff _)).trans (by rw [hpc]; rfl)
  | jg x => exact (State.jumpIf_pc_toNat _ x (Cond.holds_g_iff _)).trans (by rw [hpc]; rfl)
  | jle x => exact (State.jumpIf_pc_toNat _ x (Cond.holds_le_iff _)).trans (by rw [hpc]; rfl)
  | jge x => exact (State.jumpIf_pc_toNat _ x (Cond.holds_ge_iff _)).trans (by rw [hpc]; rfl)
  | jmp x | call x => exact zext32_toNat x
  | ret => rfl
  | nop | movRR _ _ | movI16 _ _ | movI32 _ _ | load _ _ | store _ _ | storeI32 _ _ | add _ _
  | sub _ _ | and _ _ | or _ _ | xor _ _ | not _ | addI16 _ _ | cmpI16 _ _ | cmpRR _ _ | push _
  | pop _ | inp _ | out _ | hlt => exact hpc

/-! ### The word behind a fetch -/

theorem opcodeOf_of_complete {w : Word} {i : Instr} (h : decodeHeader w = .complete i) :
    opcodeOf w = i.opcode := by
  unfold decodeHeader at h
  split at h
  case h_27 | h_28 => split at h <;> cases h
  case h_31 => cases h
  all_goals
    rename_i hop
    cases h
    exact hop

/-- The opcode of a decoded instruction is that of its first word. -/
theorem opcodeOf_of_decode {w : Word} {ws rest : List Word} {i : Instr}
    (h : decode (w :: ws) = .instr i rest) : opcodeOf w = i.opcode := by
  obtain ⟨hd, -⟩ | ⟨d, l, hd, rfl, -⟩ | ⟨a, v, hd, rfl, -⟩ := decode_eq_instr h
  · exact opcodeOf_of_complete hd
  · exact ((decodeHeader_eq_needsLiteral w d).mp hd).1
  · exact ((decodeHeader_eq_needsTwoLiterals w).mp hd).1

theorem opcode_eq_hlt_iff (i : Instr) : i.opcode = 0xFF#8 ↔ i = .hlt := by
  cases i <;> simp [Instr.opcode]

/-- What a running engine hands to a handler comes from a fetched word with its opcode. -/
theorem State.fetch_run_word {s t : State} {i : Instr} (h : s.fetch = .run i t) :
    s.Fetches (s.mem.read s.pc.toNat) ∧ opcodeOf (s.mem.read s.pc.toNat) = i.opcode := by
  obtain ⟨hrun, hlt, -, hdec⟩ := s.fetch_run t i h
  have hf := State.fetches_of_lt hrun hlt
  obtain ⟨n, hn⟩ := Nat.exists_eq_add_one.mpr (words_pos i)
  rw [hn, s.wordsAt_succ n _ _ hf.2] at hdec
  exact ⟨hf, opcodeOf_of_decode hdec⟩

/-- The fetch part answers a soft halt only for a word the decoder calls unknown. -/
theorem State.fetchRest_softHalt {s : State} {w : Word} {op : Byte}
    (h : s.fetchRest w = .stop (s.softHalt op)) : decodeHeader w = .unknown op := by
  unfold State.fetchRest at h
  cases hd : decodeHeader w with
  | complete i => simp [hd] at h
  | needsLiteral d =>
    by_cases hin : s.pc + 1#32 < s.memSize
    · simp [hd, State.fetchLiteral_inside d ((s.memRead_eq_ok _ _).mpr ⟨hin, rfl⟩)] at h
    · simp [hd, State.fetchLiteral_outside d (BitVec.not_lt.mp hin), State.softHalt] at h
  | needsTwoLiterals =>
    by_cases h1 : s.pc + 1#32 < s.memSize
    · by_cases h2 : s.pc + 2#32 < s.memSize
      · simp [hd, State.fetchTwoLiterals_inside ((s.memRead_eq_ok _ _).mpr ⟨h1, rfl⟩)
          ((s.memRead_eq_ok _ _).mpr ⟨h2, rfl⟩)] at h
      · simp [hd, State.fetchTwoLiterals_second_outside h1 (BitVec.not_lt.mp h2),
          State.softHalt] at h
    · simp [hd, State.fetchTwoLiterals_first_outside (BitVec.not_lt.mp h1), State.softHalt] at h
  | unknown o => simpa [hd, State.softHalt] using h
  | reserved => simp [hd] at h

/-! ### What sets `halted` -/

/-- A completed step of a running engine leaves it halted exactly when the fetched word is HLT. -/
theorem step_next_halted_iff {s t : State} (hrun : s.halted = false) (h : step s = .next t) :
    t.halted = true ↔ s.Fetches (s.mem.read s.pc.toNat) ∧
      opcodeOf (s.mem.read s.pc.toNat) = 0xFF#8 := by
  obtain ⟨hhalted, -⟩ | ⟨i, u, hf, hs⟩ | ⟨f, -, hs⟩ | ⟨w, a, -, hs⟩ := step_cases s
  · exact absurd (hhalted.symm.trans hrun) (by decide)
  · obtain ⟨-, -, hu, -⟩ := s.fetch_run u i hf
    have huhalted : u.halted = false := by rw [hu]; exact hrun
    obtain ⟨-, rfl⟩ := (exec_eq_next i u t).mp (hs.symm.trans h)
    obtain ⟨hfetch, hop⟩ := State.fetch_run_word hf
    rw [after_halted, huhalted, Bool.false_or, beq_iff_eq, ← opcode_eq_hlt_iff, ← hop]
    exact (and_iff_right hfetch).symm
  · cases hs.symm.trans h
  · cases hs.symm.trans h

theorem exec_fault_halted {i : Instr} {s : State} {f : Fault} (h : exec i s = .fault f) :
    f.left.halted = s.halted := by
  obtain ⟨a, -, rfl⟩ | ⟨-, rfl⟩ | ⟨-, rfl⟩ | ⟨-, rfl⟩ := exec_fault i s f h <;> rfl

/-- A fault of a running engine leaves it halted exactly when the fetched word's opcode is absent from
the table. -/
theorem step_fault_halted_iff {s : State} {f : Fault} (hrun : s.halted = false)
    (h : step s = .fault f) :
    f.left.halted = true ↔ s.Fetches (s.mem.read s.pc.toNat) ∧
      formatOf (opcodeOf (s.mem.read s.pc.toNat)) = none := by
  have hno {b : Bool} (hb : b = s.halted) : b ≠ true := by rw [hb, hrun]; decide
  constructor
  · intro hhalted
    obtain hf | ⟨i, -, hexec⟩ := step_fault_cases h
    · obtain ⟨-, ⟨a, -, rfl | ⟨rfl, -⟩⟩ | ⟨op, rfl, hlt⟩⟩ := s.fetch_stop f hf
      · exact absurd hhalted (hno rfl)
      · exact absurd hhalted (hno rfl)
      · have hfetch := State.fetches_of_lt hrun hlt
        have hd := State.fetchRest_softHalt (hfetch.fetch_eq.symm.trans hf)
        exact ⟨hfetch, ((decodeHeader_eq_unknown _ op).mp hd).1⟩
    · exact absurd hhalted (hno ((exec_fault_halted hexec).trans (s.setPc_halted _)))
  · rintro ⟨hfetch, hnone⟩
    cases h.symm.trans (hfetch.step_unknown hnone)
    rfl

theorem loadProgram_halted {s t : State} {ws : List Word} {base : Word}
    (h : s.loadProgram ws base = .next t) : t.halted = s.halted := by
  unfold State.loadProgram at h
  split at h
  · cases h
    obtain ⟨-, -, -, -, hhalted, -⟩ := s.placeWords_frame ws base
    exact hhalted
  · cases h

/-- Settles O40: the two rules of the step, the halted test, the frame of a load and a constructed
engine. -/
theorem haltedBitRules : Obligations.HaltedBitRules := fun s =>
  ⟨fun hrun => ⟨fun _ => step_next_halted_iff hrun, fun _ => step_fault_halted_iff hrun⟩,
    haltedStepChangesNothing s, fun _ _ _ => loadProgram_halted, rfl⟩

/-! ### What an error leaves -/

/-- MOV imm32, the one instruction of two words, raises nothing in its handler. -/
theorem words_of_exec_fault {i : Instr} {s : State} {f : Fault} (h : exec i s = .fault f) :
    i.words = 1 ∨ i.words = 3 := by
  cases i with
  | movI32 d l => cases h
  | storeI32 a v => exact .inr rfl
  | _ => exact .inl rfl

/-- Settles O42: an error of the fetch part leaves `pc` at A or A + 1, an error of a handler past the
one or three words of its instruction. -/
theorem errorsLeaveAllButPc : Obligations.ErrorsLeaveAllButPc := by
  intro s f hok h hsoft
  have hsp : s.sp ≤ s.memSize := of_decide_eq_true hok
  obtain hf | ⟨i, -, hexec⟩ := step_fault_cases h
  · obtain ⟨-, ⟨a, -, rfl | ⟨rfl, -⟩⟩ | ⟨op, rfl, -⟩⟩ := s.fetch_stop f hf
    · exact ⟨rfl, .inl rfl⟩
    · exact ⟨rfl, .inr (.inl rfl)⟩
    · exact absurd rfl (hsoft op _ _)
  · have hleft := exec_fault_left (s := s.setPc (s.pc + BitVec.ofNat 32 i.words)) hsp hexec
    rw [hleft]
    obtain h1 | h3 := words_of_exec_fault hexec
    · exact ⟨rfl, .inr (.inl (by rw [h1]; rfl))⟩
    · exact ⟨rfl, .inr (.inr (by rw [h3]; rfl))⟩

/-! ### Successful runs -/

/-- A run that is unfinished after `k` steps goes on from where it has come to. -/
theorem run_add {k : Nat} {s u : State} (h : run k s = (.unfinished, u)) (m : Nat) :
    run (k + m) s = run m u := by
  induction k generalizing s with
  | zero =>
    cases hh : s.halted
    · rw [run_zero s hh] at h
      cases h
      rw [Nat.zero_add]
    · cases (run_of_halted 0 s hh).symm.trans h
  | succ k ih =>
    cases hh : s.halted
    · by_cases hn : ∃ t, step s = .next t
      · obtain ⟨t, ht⟩ := hn
        rw [run_next k s t hh ht] at h
        rw [Nat.add_right_comm, run_next _ s t hh ht]
        exact ih h
      · exact absurd (congrArg Prod.fst h) (run_not_next k s hh fun t ht => hn ⟨t, ht⟩).2
    · cases (run_of_halted _ s hh).symm.trans h

/-- A run that comes to an HLT word with a step left ends at it, halted and with `pc` past it. -/
theorem run_of_hlt {n k : Nat} {s u : State} {w : Word} (hk : k < n)
    (hu : run k s = (.unfinished, u)) (hf : u.Fetches w) (hop : opcodeOf w = 0xFF#8) :
    run n s = (.halted, (u.setPc (u.pc + 1#32)).halt) := by
  obtain ⟨m, rfl⟩ : ∃ m, n = k + (m + 1) := ⟨n - k - 1, by omega⟩
  rw [run_add hu, run_next m u _ hf.1 (hf.step_hlt hop)]
  exact run_of_halted m _ rfl

/-- A run that ends halted from a running engine has come to an HLT word. -/
theorem hlt_of_run_halted {n : Nat} {s : State} (hrun : s.halted = false)
    (h : (run n s).1 = .halted) :
    ∃ k u w, k < n ∧ run k s = (.unfinished, u) ∧ u.Fetches w ∧ opcodeOf w = 0xFF#8 := by
  induction n generalizing s with
  | zero =>
    rw [run_zero s hrun] at h
    cases h
  | succ n ih =>
    by_cases hn : ∃ t, step s = .next t
    · obtain ⟨t, ht⟩ := hn
      rw [run_next n s t hrun ht] at h
      cases hh : t.halted
      · obtain ⟨k, u, w, hk, hu, hhlt⟩ := ih hh h
        exact ⟨k + 1, u, w, Nat.succ_lt_succ hk, (run_next k s t hrun ht).trans hu, hhlt⟩
      · exact ⟨0, s, _, Nat.succ_pos n, run_zero s hrun, (step_next_halted_iff hrun ht).mp hh⟩
    · exact absurd h (run_not_next n s hrun fun t ht => hn ⟨t, ht⟩).1

theorem endsHalted_iff (n : Nat) (s : State) :
    endsHalted n s = true ↔ s.halted = false ∧ (run n s).1 = .halted := by
  simp [endsHalted]

/-- Settles O50: only HLT halts a completed step, and a halted engine ends the run where it stands. -/
theorem successfulRunsEndByHlt : Obligations.SuccessfulRunsEndByHlt := by
  intro n s
  refine ⟨(endsHalted_iff n s).trans ⟨fun ⟨hrun, h⟩ => hlt_of_run_halted hrun h, ?_⟩, ?_⟩
  · rintro ⟨k, u, w, hk, hu, hf, hop⟩
    refine ⟨Bool.eq_false_iff.mpr fun hh => ?_, by rw [run_of_hlt hk hu hf hop]⟩
    cases (run_of_halted k s hh).symm.trans hu
  · intro k u w hk hu hf hop
    rw [run_of_hlt hk hu hf hop]
    exact ⟨rfl, rfl, rfl⟩

end Sys2Proof.Machine

/-! PROOFS. The host's accessors and the load that does not fit (10_state R31, R32,
70_reset_and_hazards R227, R229). -/

namespace Sys2Proof.Machine

/-- Settles O58: the fit is what loadProgram tests. -/
theorem loadThatDoesNotFitIsRefused : Obligations.LoadThatDoesNotFitIsRefused := by
  intro s words base h
  have hfit : programFits s.memSize base words.length = false := decide_eq_false (Nat.not_le.mpr h)
  simp [State.loadProgram, hfit]

/-- The bitmask is the sum of the flags' bits: six bits fit in a byte (10_state R32). -/
theorem Flags.packed_toNat (f : Flags) :
    f.packed.toNat = f.carry.toNat + 2 * f.zero.toNat + 4 * f.interrupt.toNat +
      8 * f.sign.toNat + 16 * f.overflow.toNat + 32 * f.parity.toNat := by
  have hc := f.carry.toNat_le
  have hz := f.zero.toNat_le
  have hi := f.interrupt.toNat_le
  have hn := f.sign.toNat_le
  have ho := f.overflow.toNat_le
  have hp := f.parity.toNat_le
  simp only [Flags.packed, Flags.byBit, List.map_cons, List.map_nil, List.foldr_cons,
    List.foldr_nil, BitVec.toNat_ofNat]
  omega

/-- A name is listed exactly when the flag of that name is set. -/
theorem Flags.mem_names (f : Flags) (n : FlagName) : n ∈ f.names ↔ (n, true) ∈ f.byBit := by
  simp [Flags.names]

/-- The listed names stand in the order of the bits. -/
theorem Flags.names_sublist (f : Flags) : f.names.Sublist (f.byBit.map (·.1)) :=
  List.filter_sublist.map _

/-- Settles O59: the bitmask as a sum, the names as a filter of the six in bit order. -/
theorem packedFlagsLayout : Obligations.PackedFlagsLayout := by
  intro s
  refine ⟨s.flags.packed_toNat, fun n => (s.flags.mem_names n).trans ?_, s.flags.names_sublist⟩
  cases n <;> simp [Flags.byBit]

/-- Settles O60: inside memory the range is `State.wordsAt`, which reads word by word. -/
theorem snapshotRangeReadsMemory : Obligations.SnapshotRangeReadsMemory := by
  intro s base n
  constructor
  · intro h
    rw [State.snapshotRange, if_pos h, s.wordsAt_inside n base h]
  · intro h
    rw [State.snapshotRange, if_neg (Nat.not_le.mpr h)]

end Sys2Proof.Machine
